-- ==== Sys2Proof/Word.lean ====
section
/-! DEFINITION. The word types of benw23/chip8 CORE (spec 00_scope.md R5: bit 0 is the least significant bit, every value
is unsigned). -/

namespace Sys2Proof

/-- A general register, a timer, a memory byte or the immediate `kk`: 8 bits (00_scope.md R4, `XLEN`). -/
abbrev Byte := BitVec 8

/-- An instruction word, `pc`, `I` or a call-stack entry: 16 bits. -/
abbrev Word := BitVec 16

/-- A register number, the sprite row count `n` or the top nibble of an instruction: 4 bits (30_encoding.md R61). -/
abbrev Nibble := BitVec 4

/-- The address field `nnn`: 12 bits (30_encoding.md R61). -/
abbrev Addr := BitVec 12

/-- `zext_16(v)` of 00_scope.md R5: widen to 16 bits with zero bits. -/
abbrev zext16 {w : Nat} (v : BitVec w) : Word := v.setWidth 16

end Sys2Proof
end

