-- ==== Sys2Proof/Syntax.lean ====
section
/-! DEFINITION. The instruction set of benw23/chip8 CORE as syntax: the six formats (30_encoding.md R62) and one
constructor per row of the opcode map (30_encoding.md R65, R70, R74: 34 instructions). -/

namespace Sys2Proof

/-- The six instruction formats of 30_encoding.md R62. -/
inductive Format where
  /-- zero operands -/
  | Z
  /-- address `nnn` -/
  | A
  /-- register `x`, immediate `kk` -/
  | XK
  /-- registers `x`, `y` -/
  | XY
  /-- registers `x`, `y`, count `n` -/
  | XYN
  /-- register `x` -/
  | X
deriving DecidableEq, Repr

/-- The 34 instructions, in the order of 30_encoding.md R65. A register number is a 4-bit field and every value of it
names a register (10_state.md R14), so no operand of an `Instr` can be out of range. -/
inductive Instr where
  /-- `CLS`: clear the display (R117). -/
  | cls
  /-- `RET`: return from subroutine (R81). -/
  | ret
  /-- `JP nnn`: jump (R82). -/
  | jp (nnn : Addr)
  /-- `CALL nnn`: call subroutine (R83). -/
  | call (nnn : Addr)
  /-- `SE Vx,kk`: skip if register equals immediate (R84). -/
  | seImm (x : Nibble) (kk : Byte)
  /-- `SNE Vx,kk`: skip if register differs from immediate (R85). -/
  | sneImm (x : Nibble) (kk : Byte)
  /-- `SE Vx,Vy`: skip if two registers are equal (R86). -/
  | seReg (x y : Nibble)
  /-- `LD Vx,kk`: load immediate (R92). -/
  | ldImm (x : Nibble) (kk : Byte)
  /-- `ADD Vx,kk`: add immediate, no flag (R93). -/
  | addImm (x : Nibble) (kk : Byte)
  /-- `LD Vx,Vy`: copy register (R94). -/
  | ldReg (x y : Nibble)
  /-- `OR Vx,Vy` (R95). -/
  | orReg (x y : Nibble)
  /-- `AND Vx,Vy` (R96). -/
  | andReg (x y : Nibble)
  /-- `XOR Vx,Vy` (R97). -/
  | xorReg (x y : Nibble)
  /-- `ADD Vx,Vy`: add registers with carry out (R98). -/
  | addReg (x y : Nibble)
  /-- `SUB Vx,Vy`: subtract, VF = strictly greater (R99). -/
  | subReg (x y : Nibble)
  /-- `SHR Vx`: shift right by one (R100). The field `y` is in the word and ignored (R69); the constructor keeps it (log 15). -/
  | shr (x y : Nibble)
  /-- `SUBN Vx,Vy`: reverse subtract, VF = strictly greater (R101). -/
  | subnReg (x y : Nibble)
  /-- `SHL Vx`: shift left by one (R102). The field `y` is in the word and ignored (R69); the constructor keeps it (log 15). -/
  | shl (x y : Nibble)
  /-- `SNE Vx,Vy`: skip if two registers differ (R87). -/
  | sneReg (x y : Nibble)
  /-- `LD I,nnn`: load index pointer (R106). -/
  | ldI (nnn : Addr)
  /-- `JP V0,nnn`: jump with offset (R88). -/
  | jpV0 (nnn : Addr)
  /-- `RND Vx,kk`: masked random byte (R103). -/
  | rnd (x : Nibble) (kk : Byte)
  /-- `DRW Vx,Vy,n`: draw a sprite by exclusive OR (R118). -/
  | drw (x y n : Nibble)
  /-- `SKP Vx`: skip if key pressed (R123). -/
  | skp (x : Nibble)
  /-- `SKNP Vx`: skip if key not pressed (R124). -/
  | sknp (x : Nibble)
  /-- `LD Vx,DT`: read the delay timer (R125). -/
  | ldVxDt (x : Nibble)
  /-- `LD Vx,K`: wait for a key (R126). -/
  | ldVxK (x : Nibble)
  /-- `LD DT,Vx`: set the delay timer (R127). -/
  | ldDtVx (x : Nibble)
  /-- `LD ST,Vx`: set the sound timer (R128). -/
  | ldStVx (x : Nibble)
  /-- `ADD I,Vx`: add register to index pointer (R107). -/
  | addI (x : Nibble)
  /-- `LD F,Vx`: point index at a font glyph (R108). -/
  | ldF (x : Nibble)
  /-- `LD B,Vx`: store binary-coded decimal (R109). -/
  | ldB (x : Nibble)
  /-- `LD [I],Vx`: store registers V0 to Vx (R110). -/
  | storeRegs (x : Nibble)
  /-- `LD Vx,[I]`: load registers V0 to Vx (R111). -/
  | loadRegs (x : Nibble)
deriving DecidableEq, Repr

/-- The mnemonic and operand shape, as the source and 30_encoding.md R65 and R71 write it. -/
def Instr.mnemonic : Instr → String
  | .cls => "CLS"
  | .ret => "RET"
  | .jp _ => "JP nnn"
  | .call _ => "CALL nnn"
  | .seImm _ _ => "SE Vx,kk"
  | .sneImm _ _ => "SNE Vx,kk"
  | .seReg _ _ => "SE Vx,Vy"
  | .ldImm _ _ => "LD Vx,kk"
  | .addImm _ _ => "ADD Vx,kk"
  | .ldReg _ _ => "LD Vx,Vy"
  | .orReg _ _ => "OR Vx,Vy"
  | .andReg _ _ => "AND Vx,Vy"
  | .xorReg _ _ => "XOR Vx,Vy"
  | .addReg _ _ => "ADD Vx,Vy"
  | .subReg _ _ => "SUB Vx,Vy"
  | .shr _ _ => "SHR Vx"
  | .subnReg _ _ => "SUBN Vx,Vy"
  | .shl _ _ => "SHL Vx"
  | .sneReg _ _ => "SNE Vx,Vy"
  | .ldI _ => "LD I,nnn"
  | .jpV0 _ => "JP V0,nnn"
  | .rnd _ _ => "RND Vx,kk"
  | .drw _ _ _ => "DRW Vx,Vy,n"
  | .skp _ => "SKP Vx"
  | .sknp _ => "SKNP Vx"
  | .ldVxDt _ => "LD Vx,DT"
  | .ldVxK _ => "LD Vx,K"
  | .ldDtVx _ => "LD DT,Vx"
  | .ldStVx _ => "LD ST,Vx"
  | .addI _ => "ADD I,Vx"
  | .ldF _ => "LD F,Vx"
  | .ldB _ => "LD B,Vx"
  | .storeRegs _ => "LD [I],Vx"
  | .loadRegs _ => "LD Vx,[I]"

/-- The format of each instruction (30_encoding.md R62, last column). -/
def Instr.format : Instr → Format
  | .cls | .ret => .Z
  | .jp _ | .call _ | .ldI _ | .jpV0 _ => .A
  | .seImm _ _ | .sneImm _ _ | .ldImm _ _ | .addImm _ _ | .rnd _ _ => .XK
  | .seReg _ _ | .sneReg _ _ | .ldReg _ _ | .orReg _ _ | .andReg _ _ | .xorReg _ _ | .addReg _ _ | .subReg _ _
  | .shr _ _ | .subnReg _ _ | .shl _ _ => .XY
  | .drw _ _ _ => .XYN
  | .skp _ | .sknp _ | .ldVxDt _ | .ldVxK _ | .ldDtVx _ | .ldStVx _ | .addI _ | .ldF _ | .ldB _ | .storeRegs _
  | .loadRegs _ => .X

end Sys2Proof
end

