-- ==== Sys2Proof/WellFormed.lean ====
section
/-! DEFINITION. Well-formedness of operands: each fits its field of the instruction word (30_encoding.md R61, R63), and
an operand that the format does not have is absent (R62). The operands are plain numbers here, as assembler text
gives them (R71: `Vx`, `kk`, `nnn`, `n`). The fields of an `Instr` have the widths of R61 as their types, so the check
holds of every `Instr` (Laws/PerInstr.lean): 10_state.md R14 says that no register index can be out of range. -/

namespace Sys2Proof

/-- The operands of an instruction as plain numbers; an operand the format does not have stays 0. -/
structure RawOperands where
  x : Nat := 0
  y : Nat := 0
  n : Nat := 0
  kk : Nat := 0
  nnn : Nat := 0
deriving DecidableEq, Repr

/-- The operands of a format fit their fields: `x`, `y`, `n` are 4 bits, `kk` is 8, `nnn` is 12 (R61); the others are
absent (R62). -/
def Format.fits : Format → RawOperands → Bool
  | .Z, o => o == {}
  | .A, o => decide (o.nnn < 4096) && o == { nnn := o.nnn }
  | .XK, o => decide (o.x < 16) && decide (o.kk < 256) && o == { x := o.x, kk := o.kk }
  | .XY, o => decide (o.x < 16) && decide (o.y < 16) && o == { x := o.x, y := o.y }
  | .XYN, o => decide (o.x < 16) && decide (o.y < 16) && decide (o.n < 16) && o == { x := o.x, y := o.y, n := o.n }
  | .X, o => decide (o.x < 16) && o == { x := o.x }

/-- The operands an instruction carries, as numbers. -/
def Instr.operands : Instr → RawOperands
  | .cls | .ret => {}
  | .jp nnn | .call nnn | .ldI nnn | .jpV0 nnn => { nnn := nnn.toNat }
  | .seImm x kk | .sneImm x kk | .ldImm x kk | .addImm x kk | .rnd x kk => { x := x.toNat, kk := kk.toNat }
  | .seReg x y | .sneReg x y | .ldReg x y | .orReg x y | .andReg x y | .xorReg x y | .addReg x y | .subReg x y
  | .shr x y | .subnReg x y | .shl x y => { x := x.toNat, y := y.toNat }
  | .drw x y n => { x := x.toNat, y := y.toNat, n := n.toNat }
  | .skp x | .sknp x | .ldVxDt x | .ldVxK x | .ldDtVx x | .ldStVx x | .addI x | .ldF x | .ldB x | .storeRegs x
  | .loadRegs x => { x := x.toNat }

/-- An instruction is well formed when its operands fit the fields of its format. -/
def Instr.wellFormed (i : Instr) : Bool := i.format.fits i.operands

end Sys2Proof
end

