-- ==== Sys2Proof/Decode.lean ====
section
/-! DEFINITION. Decoding a 16-bit instruction word (30_encoding.md R61, R64, R67), the encoder, and the opcode map of R65
as a table. Every bit pattern follows R65, which the spec marks as general knowledge (D1, D2; log 1). -/

namespace Sys2Proof

/-- The six classes of illegal words of 30_encoding.md R67, and the input too short to hold a word. -/
inductive IllegalClass where
  /-- R67 (a), R68: `0nnn` other than 0x00E0 and 0x00EE. -/
  | sysSpace
  /-- R67 (b): `5xyn` with `n` not 0. -/
  | seLowNibble
  /-- R67 (c): `9xyn` with `n` not 0. -/
  | sneLowNibble
  /-- R67 (d): `8xyn` with `n` in 8 to 0xD or 0xF. -/
  | aluLowNibble
  /-- R67 (e): `Exkk` with `kk` other than 0x9E and 0xA1. -/
  | keyLowByte
  /-- R67 (f): `Fxkk` with `kk` not one of the nine of R65. -/
  | miscLowByte
  /-- Fewer than two bytes: no instruction word (R60). Only `decodeBytes` answers it. -/
  | truncated
deriving DecidableEq, Repr

/-- What decoding a word answers: one of the 34 instructions, or why it is a decode error. -/
inductive Decoded where
  | insn (i : Instr)
  | illegal (c : IllegalClass)
deriving DecidableEq, Repr

/-- The decoded instruction, if there is one. -/
def Decoded.toOption : Decoded → Option Instr
  | .insn i => some i
  | .illegal _ => none

/-! The fields of an instruction word (30_encoding.md R61). -/

/-- `op = w[15:12]`. -/
def fieldOp (w : Word) : Nibble := w.extractLsb' 12 4
/-- `x = w[11:8]`. -/
def fieldX (w : Word) : Nibble := w.extractLsb' 8 4
/-- `y = w[7:4]`. -/
def fieldY (w : Word) : Nibble := w.extractLsb' 4 4
/-- `n = w[3:0]`. -/
def fieldN (w : Word) : Nibble := w.extractLsb' 0 4
/-- `kk = w[7:0]`. -/
def fieldKk (w : Word) : Byte := w.extractLsb' 0 8
/-- `nnn = w[11:0]`. -/
def fieldNnn (w : Word) : Addr := w.extractLsb' 0 12

/-- Family 0: the secondary key is the whole low 12 bits (R64; R68 for the rest, log 2). -/
def decodeSys (w : Word) : Decoded :=
  if fieldNnn w = 0x0E0 then .insn .cls
  else if fieldNnn w = 0x0EE then .insn .ret
  else .illegal .sysSpace

/-- Family 5: the low nibble must be 0 (R64, R86). -/
def decodeSeReg (w : Word) : Decoded :=
  if fieldN w = 0 then .insn (.seReg (fieldX w) (fieldY w)) else .illegal .seLowNibble

/-- Family 9: the low nibble must be 0 (R64, R87). -/
def decodeSneReg (w : Word) : Decoded :=
  if fieldN w = 0 then .insn (.sneReg (fieldX w) (fieldY w)) else .illegal .sneLowNibble

/-- Family 8: the secondary key is the low nibble (R64). -/
def decodeAlu (w : Word) : Decoded :=
  match fieldN w with
  | 0x0#4 => .insn (.ldReg (fieldX w) (fieldY w))
  | 0x1#4 => .insn (.orReg (fieldX w) (fieldY w))
  | 0x2#4 => .insn (.andReg (fieldX w) (fieldY w))
  | 0x3#4 => .insn (.xorReg (fieldX w) (fieldY w))
  | 0x4#4 => .insn (.addReg (fieldX w) (fieldY w))
  | 0x5#4 => .insn (.subReg (fieldX w) (fieldY w))
  | 0x6#4 => .insn (.shr (fieldX w) (fieldY w))
  | 0x7#4 => .insn (.subnReg (fieldX w) (fieldY w))
  | 0xE#4 => .insn (.shl (fieldX w) (fieldY w))
  | _ => .illegal .aluLowNibble

/-- Family E: the secondary key is the low byte (R64). -/
def decodeKey (w : Word) : Decoded :=
  match fieldKk w with
  | 0x9E#8 => .insn (.skp (fieldX w))
  | 0xA1#8 => .insn (.sknp (fieldX w))
  | _ => .illegal .keyLowByte

/-- Family F: the secondary key is the low byte (R64). -/
def decodeMisc (w : Word) : Decoded :=
  match fieldKk w with
  | 0x07#8 => .insn (.ldVxDt (fieldX w))
  | 0x0A#8 => .insn (.ldVxK (fieldX w))
  | 0x15#8 => .insn (.ldDtVx (fieldX w))
  | 0x18#8 => .insn (.ldStVx (fieldX w))
  | 0x1E#8 => .insn (.addI (fieldX w))
  | 0x29#8 => .insn (.ldF (fieldX w))
  | 0x33#8 => .insn (.ldB (fieldX w))
  | 0x55#8 => .insn (.storeRegs (fieldX w))
  | 0x65#8 => .insn (.loadRegs (fieldX w))
  | _ => .illegal .miscLowByte

/-- Decode by the top nibble, then by the family's secondary key (30_encoding.md R64). Total: every word is one of the
34 instructions or a decode error. The last arm is family F, the one value of the top nibble that is left. -/
def decode (w : Word) : Decoded :=
  match fieldOp w with
  | 0x0#4 => decodeSys w
  | 0x1#4 => .insn (.jp (fieldNnn w))
  | 0x2#4 => .insn (.call (fieldNnn w))
  | 0x3#4 => .insn (.seImm (fieldX w) (fieldKk w))
  | 0x4#4 => .insn (.sneImm (fieldX w) (fieldKk w))
  | 0x5#4 => decodeSeReg w
  | 0x6#4 => .insn (.ldImm (fieldX w) (fieldKk w))
  | 0x7#4 => .insn (.addImm (fieldX w) (fieldKk w))
  | 0x8#4 => decodeAlu w
  | 0x9#4 => decodeSneReg w
  | 0xA#4 => .insn (.ldI (fieldNnn w))
  | 0xB#4 => .insn (.jpV0 (fieldNnn w))
  | 0xC#4 => .insn (.rnd (fieldX w) (fieldKk w))
  | 0xD#4 => .insn (.drw (fieldX w) (fieldY w) (fieldN w))
  | 0xE#4 => decodeKey w
  | _ => decodeMisc w

/-- `word = hi ++ lo`: the byte at the lower address is the high byte (20_memory.md R44). -/
def wordOfBytes (hi lo : Byte) : Word := hi ++ lo

/-- Decode the instruction at the head of a list of bytes, as they lie in memory (30_encoding.md R60). -/
def decodeBytes : List Byte → Decoded
  | hi :: lo :: _ => decode (wordOfBytes hi lo)
  | _ => .illegal .truncated

/-- The two bytes of a word as the hardware stores them, first the one at the lower address (20_memory.md R44). -/
def wordBytes (w : Word) : List Byte := [w.extractLsb' 8 8, w.extractLsb' 0 8]

/-- The 16-bit word that the opcode table's numbering gives: `w` with every bit from `nbits` up zero. -/
def tableWord (nbits w : Nat) : Word := BitVec.ofNat 16 (w % 2 ^ nbits)

/-- The instruction the decoder reads from a word numbered as spec/opcode_table.json numbers it. -/
def decodeTableWord (nbits w : Nat) : Option Instr := (decodeBytes (wordBytes (tableWord nbits w))).toOption

/-! The encoder, written from the column "word" of 30_encoding.md R65. -/

/-- Format A: top nibble, `nnn`. -/
def encodeA (op : Nibble) (nnn : Addr) : Word := op ++ nnn
/-- Formats XK and X: top nibble, `x`, low byte. -/
def encodeXK (op x : Nibble) (kk : Byte) : Word := op ++ x ++ kk
/-- Formats XY and XYN: four nibbles. -/
def encodeXYN (op x y n : Nibble) : Word := op ++ x ++ y ++ n

/-- The word of an instruction (30_encoding.md R65). -/
def encode : Instr → Word
  | .cls => 0x00E0
  | .ret => 0x00EE
  | .jp nnn => encodeA 0x1 nnn
  | .call nnn => encodeA 0x2 nnn
  | .seImm x kk => encodeXK 0x3 x kk
  | .sneImm x kk => encodeXK 0x4 x kk
  | .seReg x y => encodeXYN 0x5 x y 0x0
  | .ldImm x kk => encodeXK 0x6 x kk
  | .addImm x kk => encodeXK 0x7 x kk
  | .ldReg x y => encodeXYN 0x8 x y 0x0
  | .orReg x y => encodeXYN 0x8 x y 0x1
  | .andReg x y => encodeXYN 0x8 x y 0x2
  | .xorReg x y => encodeXYN 0x8 x y 0x3
  | .addReg x y => encodeXYN 0x8 x y 0x4
  | .subReg x y => encodeXYN 0x8 x y 0x5
  | .shr x y => encodeXYN 0x8 x y 0x6
  | .subnReg x y => encodeXYN 0x8 x y 0x7
  | .shl x y => encodeXYN 0x8 x y 0xE
  | .sneReg x y => encodeXYN 0x9 x y 0x0
  | .ldI nnn => encodeA 0xA nnn
  | .jpV0 nnn => encodeA 0xB nnn
  | .rnd x kk => encodeXK 0xC x kk
  | .drw x y n => encodeXYN 0xD x y n
  | .skp x => encodeXK 0xE x 0x9E
  | .sknp x => encodeXK 0xE x 0xA1
  | .ldVxDt x => encodeXK 0xF x 0x07
  | .ldVxK x => encodeXK 0xF x 0x0A
  | .ldDtVx x => encodeXK 0xF x 0x15
  | .ldStVx x => encodeXK 0xF x 0x18
  | .addI x => encodeXK 0xF x 0x1E
  | .ldF x => encodeXK 0xF x 0x29
  | .ldB x => encodeXK 0xF x 0x33
  | .storeRegs x => encodeXK 0xF x 0x55
  | .loadRegs x => encodeXK 0xF x 0x65

/-- One row of the opcode map: a word `w` selects the row when `w &&& mask = value` (30_encoding.md R65). -/
structure OpcodeRow where
  mnemonic : String
  format : Format
  mask : Word
  value : Word
deriving DecidableEq, Repr

/-- `word & mask = match` of 30_encoding.md R65. -/
def OpcodeRow.selects (r : OpcodeRow) (w : Word) : Prop := w &&& r.mask = r.value

/-- Rows 1 to 9 of R65. -/
def opcodeRows1 : List OpcodeRow := [
  ⟨"CLS", .Z, 0xFFFF, 0x00E0⟩,
  ⟨"RET", .Z, 0xFFFF, 0x00EE⟩,
  ⟨"JP nnn", .A, 0xF000, 0x1000⟩,
  ⟨"CALL nnn", .A, 0xF000, 0x2000⟩,
  ⟨"SE Vx,kk", .XK, 0xF000, 0x3000⟩,
  ⟨"SNE Vx,kk", .XK, 0xF000, 0x4000⟩,
  ⟨"SE Vx,Vy", .XY, 0xF00F, 0x5000⟩,
  ⟨"LD Vx,kk", .XK, 0xF000, 0x6000⟩,
  ⟨"ADD Vx,kk", .XK, 0xF000, 0x7000⟩]

/-- Rows 10 to 19 of R65. -/
def opcodeRows2 : List OpcodeRow := [
  ⟨"LD Vx,Vy", .XY, 0xF00F, 0x8000⟩,
  ⟨"OR Vx,Vy", .XY, 0xF00F, 0x8001⟩,
  ⟨"AND Vx,Vy", .XY, 0xF00F, 0x8002⟩,
  ⟨"XOR Vx,Vy", .XY, 0xF00F, 0x8003⟩,
  ⟨"ADD Vx,Vy", .XY, 0xF00F, 0x8004⟩,
  ⟨"SUB Vx,Vy", .XY, 0xF00F, 0x8005⟩,
  ⟨"SHR Vx", .XY, 0xF00F, 0x8006⟩,
  ⟨"SUBN Vx,Vy", .XY, 0xF00F, 0x8007⟩,
  ⟨"SHL Vx", .XY, 0xF00F, 0x800E⟩,
  ⟨"SNE Vx,Vy", .XY, 0xF00F, 0x9000⟩]

/-- Rows 20 to 34 of R65. -/
def opcodeRows3 : List OpcodeRow := [
  ⟨"LD I,nnn", .A, 0xF000, 0xA000⟩,
  ⟨"JP V0,nnn", .A, 0xF000, 0xB000⟩,
  ⟨"RND Vx,kk", .XK, 0xF000, 0xC000⟩,
  ⟨"DRW Vx,Vy,n", .XYN, 0xF000, 0xD000⟩,
  ⟨"SKP Vx", .X, 0xF0FF, 0xE09E⟩,
  ⟨"SKNP Vx", .X, 0xF0FF, 0xE0A1⟩,
  ⟨"LD Vx,DT", .X, 0xF0FF, 0xF007⟩,
  ⟨"LD Vx,K", .X, 0xF0FF, 0xF00A⟩,
  ⟨"LD DT,Vx", .X, 0xF0FF, 0xF015⟩,
  ⟨"LD ST,Vx", .X, 0xF0FF, 0xF018⟩,
  ⟨"ADD I,Vx", .X, 0xF0FF, 0xF01E⟩,
  ⟨"LD F,Vx", .X, 0xF0FF, 0xF029⟩,
  ⟨"LD B,Vx", .X, 0xF0FF, 0xF033⟩,
  ⟨"LD [I],Vx", .X, 0xF0FF, 0xF055⟩,
  ⟨"LD Vx,[I]", .X, 0xF0FF, 0xF065⟩]

/-- `OPCODE_MAP`: the table of 30_encoding.md R65. The decoder does not read it: it is a second account of the
encoding, by mask and match, against which `decode` is stated to agree. -/
def opcodeMap : List OpcodeRow := opcodeRows1 ++ opcodeRows2 ++ opcodeRows3

end Sys2Proof
end

