-- ==== Sys2Proof/Config.lean ====
section
/-! DEFINITION. The parameters of 00_scope.md R4 that the machine's definitions use, and the one free value (the random
draw). The two parameters whose values come from general knowledge alone, `FONT_ROM` and `SPRITE_MSB_LEFT`, stand in
Machine/Params.lean; the opcode map is in Decode.lean. -/

namespace Sys2Proof.Config

/-- `MEM_SIZE`: bytes of memory, addresses 0x000 to 0xFFF (20_memory.md R40). -/
def memSize : Nat := 4096

/-- `FLAG_REG`: VF, the register that doubles as the flag (10_state.md R15). -/
def flagReg : Nibble := 15

/-- `STACK_DEPTH`: entries of the call stack (10_state.md R21). -/
def stackDepth : Nat := 16

/-- `FONT_BASE`: address of glyph 0 (42_index_memory.md R108). -/
def fontBase : Nat := 0x050

/-- `FONT_GLYPH_BYTES`: bytes per glyph. -/
def fontGlyphBytes : Nat := 5

/-- `FONT_GLYPHS`: glyphs 0 to F in order. -/
def fontGlyphs : Nat := 16

/-- `RESET_PC` (10_state.md R35, 70_reset_and_hazards.md R161; the spec's own decision D6, log 5). -/
def resetPc : Word := 0x0200

/-- `PROGRAM_BASE`: where the driver loads a program image (70_reset_and_hazards.md R163). -/
def programBase : Nat := 0x200

/-- `rnd` (10_state.md R30, OPEN in 00_scope.md R4): the byte drawn by the `k`-th executed RND. A FREE VALUE: it has no
body, so a claim holds whatever the draws are (log 7). -/
opaque rnd : Nat → Byte

end Sys2Proof.Config
end

