-- ==== Sys2Proof/Machine/Params.lean ====
section
/-! DEFINITION. The two configuration values that the spec takes from general knowledge alone and asks a model to keep as
configuration fields: `FONT_ROM` (10_state.md R37; log 3) and `SPRITE_MSB_LEFT` (43_display.md R116; log 4). They stand
here, and not in Config.lean, so that a later repair may mend them. -/

namespace Sys2Proof.Config

/-- Glyphs 0 to 7, five bytes each, top row first (10_state.md R37). -/
def fontLow : List Byte := [
  0xF0, 0x90, 0x90, 0x90, 0xF0,
  0x20, 0x60, 0x20, 0x20, 0x70,
  0xF0, 0x10, 0xF0, 0x80, 0xF0,
  0xF0, 0x10, 0xF0, 0x10, 0xF0,
  0x90, 0x90, 0xF0, 0x10, 0x10,
  0xF0, 0x80, 0xF0, 0x10, 0xF0,
  0xF0, 0x80, 0xF0, 0x90, 0xF0,
  0xF0, 0x10, 0x20, 0x40, 0x40]

/-- Glyphs 8 to F, five bytes each, top row first (10_state.md R37). -/
def fontHigh : List Byte := [
  0xF0, 0x90, 0xF0, 0x90, 0xF0,
  0xF0, 0x90, 0xF0, 0x10, 0xF0,
  0xF0, 0x90, 0xF0, 0x90, 0x90,
  0xE0, 0x90, 0xE0, 0x90, 0xE0,
  0xF0, 0x80, 0x80, 0x80, 0xF0,
  0xE0, 0x90, 0x90, 0x90, 0xE0,
  0xF0, 0x80, 0xF0, 0x80, 0xF0,
  0xF0, 0x80, 0xF0, 0x80, 0x80]

/-- `FONT_ROM`: the 80 bytes at 0x050 to 0x09F after RESET (10_state.md R37; D4, log 3). -/
def fontRom : List Byte := fontLow ++ fontHigh

/-- `SPRITE_MSB_LEFT`: bit 7 of a sprite byte is its leftmost pixel (43_display.md R116; D5, log 4). -/
def spriteMsbLeft : Bool := true

end Sys2Proof.Config
end

