-- ==== Sys2Proof/Machine/State.lean ====
section
/-! DEFINITION. The state of benw23/chip8 CORE as plain data (10_state.md R13), the reasons a step can stop, and the state
after reset (10_state.md R35). -/

namespace Sys2Proof.Machine

/-- The fault kinds of 60_exceptions.md R131. A fault of THIS list is not a stop of the model: its entry (R138) leaves a
described state, so it is a next state with the latch set (log 12). -/
inductive FaultKind where
  /-- code 0: no fault has occurred -/
  | none
  /-- code 1, R132: STEP, decode phase -/
  | decodeError
  /-- code 2, R133: `CALL` with `sp = 16` -/
  | stackOverflow
  /-- code 3, R134: `RET` with `sp = 0` -/
  | stackUnderflow
  /-- code 4, R135: fetch, `DRW`, `LD B,Vx`, `LD [I],Vx`, `LD Vx,[I]` -/
  | memoryRange
  /-- code 5, R136: `SKP`, `SKNP` -/
  | keyIndexRange
  /-- code 6, R137: the driver's LOAD -/
  | loadRange
deriving DecidableEq, Repr

/-- The fault record (10_state.md R29). -/
structure FaultRecord where
  /-- `fault_kind` -/
  kind : FaultKind
  /-- `fault_pc`: the address the faulting instruction was fetched from, or was to be fetched from -/
  pc : Word
  /-- `fault_opcode`: the instruction word, 0 when the fetch itself faulted or the fault came from LOAD -/
  opcode : Word
  /-- `fault_addr`, 17 bits: first address out of range, or the key number, else 0 -/
  addr : BitVec 17
  /-- `fault_sp`: `sp` at the fault -/
  sp : Fin 17
deriving DecidableEq, Repr

/-- The fault record with every field 0, as after RESET (10_state.md R35). -/
def FaultRecord.clear : FaultRecord := { kind := .none, pc := 0, opcode := 0, addr := 0, sp := 0 }

/-- Memory (20_memory.md R40) as the list of the cells that differ from the reset contents. -/
abbrev Memory := List Host.Cell

/-- The display: 32 rows of 64 one-bit pixels, `fb[Y][X]` (10_state.md R27, 43_display.md R119). -/
abbrev Framebuffer := Vector (Vector Bool 64) 32

/-- The key snapshot: 16 booleans, `true` for pressed (10_state.md R26). -/
abbrev Keys := Vector Bool 16

/-- The register file `V[0]`..`V[15]` (10_state.md R14). -/
abbrev Regs := Vector Byte 16

/-- The state of the CORE (10_state.md R13), and one field of the model's own (`draws`). -/
structure State where
  /-- `V[0]`..`V[15]` (R14); `V[15]` is the flag VF (R15) -/
  v : Regs
  /-- program counter (R17) -/
  pc : Word
  /-- index pointer `I` (R20) -/
  i : Word
  /-- call stack entries (R21) -/
  stack : Vector Word 16
  /-- number of stack entries in use, 0 to 16 (R21; log 8) -/
  sp : Fin 17
  /-- delay timer `DT` (R24) -/
  dt : Byte
  /-- sound timer `ST` (R25) -/
  st : Byte
  /-- memory (R31) -/
  mem : Memory
  /-- key latch (R26) -/
  keys : Keys
  /-- framebuffer (R27) -/
  fb : Framebuffer
  /-- `display_changed` (R28) -/
  displayChanged : Bool
  /-- `halted` (R29) -/
  halted : Bool
  /-- fault record (R29) -/
  fault : FaultRecord
  /-- THE MODEL'S OWN: how many random bytes have been drawn (R30; log 7) -/
  draws : Nat
deriving DecidableEq, Repr

/-- The faults at which the MODEL stops with no next state. There are none: every step has a next state (00_scope.md R8
gives a step two outcomes and describes the state both leave; 60_exceptions.md R153: no behaviour is undefined), so no
definition of the model answers `.fault` (log 12). The machine's own faults are `FaultKind`. -/
inductive Fault
deriving DecidableEq, Repr

/-- The reasons the model has no meaning for an instruction. -/
inductive Refusal where
  /-- Raised only by an arm of `exec` for an instruction that has no meaning yet; safe (the model stops). No arm of this
  model does. -/
  | notModelled (mnemonic : String)
deriving DecidableEq, Repr

/-- The machine right after RESET (10_state.md R35, 70_reset_and_hazards.md R160). Memory lists nothing: it holds the reset
contents. `stack` is unspecified by R35 (log 6); `draws` is the model's own (log 7). -/
def State.reset : State where
  v := Vector.replicate 16 0
  pc := Config.resetPc
  i := 0
  stack := Vector.replicate 16 0
  sp := 0
  dt := 0
  st := 0
  mem := []
  keys := Vector.replicate 16 false
  fb := Vector.replicate 32 (Vector.replicate 64 false)
  displayChanged := false
  halted := false
  fault := .clear
  draws := 0

end Sys2Proof.Machine
end

