-- ==== Sys2Proof/Machine/Ops.lean ====
section
/-! DEFINITION. The operations every instruction is built from: registers, memory and the address decoder, the call
stack, taking a fault, the fetch. -/

namespace Sys2Proof.Machine

/-- What a step or a meaning answers. -/
abbrev Result := Host.Outcome State Fault Refusal

/-! ## Registers (10_state.md R14 to R20) -/

/-- `V[r]`. -/
def State.getV (s : State) (r : Nibble) : Byte := s.v[r.toNat]'r.isLt

/-- `V[r] <- b`. -/
def State.setV (s : State) (r : Nibble) (b : Byte) : State := { s with v := s.v.set r.toNat b r.isLt }

/-- `pc <- target`. -/
def State.setPc (s : State) (target : Word) : State := { s with pc := target }

/-- `I <- a`. -/
def State.setI (s : State) (a : Word) : State := { s with i := a }

/-- `DT <- b`. -/
def State.setDt (s : State) (b : Byte) : State := { s with dt := b }

/-- `ST <- b`. -/
def State.setSt (s : State) (b : Byte) : State := { s with st := b }

/-- Replace memory. -/
def State.setMem (s : State) (m : Memory) : State := { s with mem := m }

/-- Replace the register file. -/
def State.setRegs (s : State) (v : Regs) : State := { s with v := v }

/-- Replace the key snapshot, all 16 bits at once (10_state.md R26). -/
def State.setKeys (s : State) (k : Keys) : State := { s with keys := k }

/-- Replace the framebuffer. -/
def State.setFb (s : State) (fb : Framebuffer) : State := { s with fb := fb }

/-- Write `display_changed` (10_state.md R28). -/
def State.setDisplayChanged (s : State) (b : Bool) : State := { s with displayChanged := b }

/-- The fetch's advance, `pc <- a + 2`, made before the instruction executes (30_encoding.md R73). -/
def State.advance (s : State) : State := s.setPc (s.pc + 2)

/-- The same addition undone: `pc <- pc - 2`, back to the address of the instruction that is executing. -/
def State.rewind (s : State) : State := s.setPc (s.pc - 2)

/-- Step over one more instruction when `c` holds: `pc <- pc + 2` (40_control_flow.md R80). -/
def State.skipIf (s : State) (c : Bool) : State := if c then s.setPc (s.pc + 2) else s

/-- Draw the next random byte: `rnd()` of 10_state.md R30 (log 7). -/
def State.drawByte (s : State) : Byte := Config.rnd s.draws

/-- Count a draw, so that the next one is another. -/
def State.countDraw (s : State) : State := { s with draws := s.draws + 1 }

/-! ## Memory (20_memory.md) -/

/-- What a byte of memory holds after RESET: `FONT_ROM` at 0x050 to 0x09F, 0x00 elsewhere (10_state.md R35, 20_memory.md
R42). An address that memory does not list reads as this. -/
def resetByte (a : Nat) : Byte :=
  if Config.fontBase ≤ a then Config.fontRom.getD (a - Config.fontBase) 0 else 0

/-- The byte at address `a`. -/
def Memory.byteAt : Memory → Nat → Byte
  | [], a => resetByte a
  | c :: m, a => if c.1 = a then c.2 else Memory.byteAt m a

/-- Put the cell `(a, b)` at its place in a rising list, over an older cell of the same address. -/
def Memory.insert (a : Nat) (b : Byte) : Memory → Memory
  | [] => [(a, b)]
  | c :: m => if a < c.1 then (a, b) :: c :: m else if a = c.1 then (a, b) :: m else c :: Memory.insert a b m

/-- Take the cell of address `a` out. -/
def Memory.erase (a : Nat) : Memory → Memory
  | [] => []
  | c :: m => if c.1 = a then Memory.erase a m else c :: Memory.erase a m

/-- `mem[a] <- b`: a byte equal to what an unlisted address reads as is not listed. -/
def Memory.setByte (m : Memory) (a : Nat) (b : Byte) : Memory :=
  if b = resetByte a then Memory.erase a m else Memory.insert a b m

/-- The canonical form: addresses strictly rising and below 4096, no cell equal to what an unlisted address reads as. -/
abbrev Memory.wf (m : Memory) : Prop :=
  m.Pairwise (fun c d => c.1 < d.1) ∧ ∀ c ∈ m, c.1 < Config.memSize ∧ c.2 ≠ resetByte c.1

/-- The `n` bytes from address `a`, ascending. -/
def Memory.bytesFrom (m : Memory) (a : Nat) : Nat → List Byte
  | 0 => []
  | n + 1 => m.byteAt a :: Memory.bytesFrom m (a + 1) n

/-- `mem[a + k] <- bytes[k]`, ascending. -/
def Memory.setBytes (m : Memory) (a : Nat) : List Byte → Memory
  | [] => m
  | b :: bs => Memory.setBytes (m.setByte a b) (a + 1) bs

/-- The address decoder's check (20_memory.md R41): an access of `n` bytes at the natural number `a` is out of range when
`n > 0` and `a + n - 1 > 4095`. Addresses do not wrap (R49; log 11). -/
def inRange (a n : Nat) : Bool := n == 0 || decide (a + n ≤ Config.memSize)

/-- `MemRead(a, n)` (20_memory.md R41): the whole range is checked before a byte moves. -/
def Memory.read (m : Memory) (a n : Nat) : Option (List Byte) :=
  if inRange a n then some (m.bytesFrom a n) else none

/-- `MemWrite(a, n, bytes)` with `n` the number of bytes (20_memory.md R41). -/
def Memory.write (m : Memory) (a : Nat) (bytes : List Byte) : Option Memory :=
  if inRange a bytes.length then some (m.setBytes a bytes) else none

/-- `max(addr, 4096)`: the first address out of range of an access at `a` that is out of range (20_memory.md R41). -/
def firstOutOfRange (a : Nat) : Nat := max a Config.memSize

/-! ## Call stack (10_state.md R21 to R23; the depth count is D9, log 8) -/

/-- `Push(v)` (R22); `none` is the case `sp = 16`. -/
def State.push (s : State) (v : Word) : Option State :=
  if h : s.sp.val < 16 then
    some { s with stack := s.stack.set s.sp.val v h, sp := ⟨s.sp.val + 1, by omega⟩ }
  else none

/-- `Pop()` (R23): the popped entry and the state after; `none` is the case `sp = 0`. The entry keeps its value. -/
def State.pop (s : State) : Option (Word × State) :=
  if h : s.sp.val = 0 then none
  else some (s.stack[s.sp.val - 1]'(by omega), { s with sp := ⟨s.sp.val - 1, by omega⟩ })

/-! ## Taking a fault (60_exceptions.md R138 to R142) -/

/-- The code of a fault kind, `fault_kind` (60_exceptions.md R131). -/
def FaultKind.code : FaultKind → BitVec 3
  | .none => 0
  | .decodeError => 1
  | .stackOverflow => 2
  | .stackUnderflow => 3
  | .memoryRange => 4
  | .keyIndexRange => 5
  | .loadRange => 6

/-- Fault entry (60_exceptions.md R138): unless already halted, set `halted` and write the record. `s` is the state
before the faulting step, so `pc` is the faulting instruction's address `a` and nothing else changes (R139; log 13). -/
def State.latchFault (s : State) (kind : FaultKind) (opcode : Word) (addr : Nat) : State :=
  if s.halted then s
  else { s with halted := true,
                fault := { kind := kind, pc := s.pc, opcode := opcode, addr := BitVec.ofNat 17 addr, sp := s.sp } }

/-- `raise` in the execute phase of instruction `i` (00_scope.md R6): the fetch's advance is undone, the word is the one
that was fetched, and the fault is taken. `s` is the state the instruction sees, with `pc = a + 2` (log 14). -/
def raise (i : Instr) (kind : FaultKind) (addr : Nat) (s : State) : Result :=
  .next (s.rewind.latchFault kind (encode i) addr)

/-! ## Fetch (20_memory.md R44) -/

/-- `Fetch(pc)`: two bytes, the high byte at the lower address; `none` when `pc > 4094`. -/
def State.fetchWord (s : State) : Option Word :=
  match s.mem.read s.pc.toNat 2 with
  | some [hi, lo] => some (wordOfBytes hi lo)
  | _ => none

/-- What the fetch and decode phases of STEP give (30_encoding.md R73): an instruction to execute, or the fault of the
phase that raised one (60_exceptions.md R140). -/
inductive Fetched where
  | run (i : Instr)
  | raised (kind : FaultKind) (opcode : Word) (addr : Nat)
deriving DecidableEq, Repr

/-- The fetch and decode phases: MemoryRange of the fetch has `fault_opcode` 0 (R135); an illegal word is a DecodeError with
`fault_addr` 0 (R132). -/
def State.fetchDecode (s : State) : Fetched :=
  match s.fetchWord with
  | none => .raised .memoryRange 0 (firstOutOfRange s.pc.toNat)
  | some w =>
    match decode w with
    | .insn i => .run i
    | .illegal _ => .raised .decodeError w 0

end Sys2Proof.Machine
end

