-- ==== Sys2Proof/Machine/Flags.lean ====
section
/-! DEFINITION. What the flag-writing instructions put in VF (10_state.md R15, R32), from the operand values before the
instruction. A flag is the whole register: 0x00 or 0x01. -/

namespace Sys2Proof.Machine

/-- A flag as the 8-bit value VF takes, 0x00 or 0x01 (10_state.md R15). -/
def flagByte (c : Bool) : Byte := if c then 1 else 0

/-- ADD Vx,Vy: carry out of bit 7, `a + b > 255` (41_alu.md R98). -/
def carryFlag (a b : Byte) : Bool := decide (255 < a.toNat + b.toNat)

/-- SUB Vx,Vy and, with the operands exchanged, SUBN Vx,Vy: strictly greater, unsigned (41_alu.md R99, R101). -/
def greaterFlag (a b : Byte) : Bool := decide (b.toNat < a.toNat)

/-- SHR Vx: `a[0]`, the bit shifted out (41_alu.md R100). -/
def lowBitFlag (a : Byte) : Bool := a.getLsbD 0

/-- SHL Vx: `a[7]`, the bit shifted out (41_alu.md R102). -/
def highBitFlag (a : Byte) : Bool := a.getLsbD 7

/-- `V[0xF] <- flag`. -/
def State.setFlag (s : State) (c : Bool) : State := s.setV Config.flagReg (flagByte c)

/-- Result first, flag last: with `x = 0xF` the flag is what VF holds afterwards (41_alu.md R91, `VF_ALIAS = flag_wins`;
log 9). -/
def State.setResultAndFlag (s : State) (x : Nibble) (result : Byte) (c : Bool) : State := (s.setV x result).setFlag c

end Sys2Proof.Machine
end

