-- ==== Sys2Proof/Machine/Operands.lean ====
section
/-! DEFINITION. The operand forms (30_encoding.md R63, R71; 42_index_memory.md R105): register operands, the register range
`V[0]`..`V[x]`, the digits of `B`, the glyph address of `F`, the key of `K`. -/

namespace Sys2Proof.Machine

/-- `EA(k) = I + k`, a natural number without wrap-around (42_index_memory.md R105, 20_memory.md R49). -/
def State.effectiveAddr (s : State) (k : Nat) : Nat := s.i.toNat + k

/-- `[V[0], ..., V[x]]`, the operand list of `LD [I],Vx` (42_index_memory.md R110). -/
def State.regsUpTo (s : State) (x : Nibble) : List Byte := s.v.toList.take (x.toNat + 1)

/-- `V[k + j] <- bytes[j]`, ascending (42_index_memory.md R111 with `k = 0`). -/
def Regs.writeFrom (v : Regs) (k : Nat) : List Byte → Regs
  | [] => v
  | b :: bs => Regs.writeFrom (v.setIfInBounds k b) (k + 1) bs

/-- The three decimal digits hundreds, tens, ones (42_index_memory.md R109). -/
def bcdDigits (v : Byte) : List Byte :=
  [BitVec.ofNat 8 (v.toNat / 100), BitVec.ofNat 8 (v.toNat / 10 % 10), BitVec.ofNat 8 (v.toNat % 10)]

/-- The address of the glyph for the low nibble of `v`, `0x0050 + 5 * d` (42_index_memory.md R108). -/
def glyphAddr (v : Byte) : Word :=
  BitVec.ofNat 16 (Config.fontBase + Config.fontGlyphBytes * (v.extractLsb' 0 4).toNat)

/-- Whether key `k` is pressed; the key numbered above 15 does not exist (44_keys_timers.md R122; log 10). -/
def Keys.pressed? (keys : Keys) (k : Byte) : Option Bool :=
  if h : k.toNat < 16 then some (keys[k.toNat]) else none

/-- `min { k | keys[k] }`, if any key is pressed (44_keys_timers.md R126). -/
def Keys.lowestPressed (keys : Keys) : Option (Fin 16) := (List.finRange 16).find? (fun k => keys[k])

end Sys2Proof.Machine
end

