-- ==== Sys2Proof/Machine/Alu.lean ====
section
/-! DEFINITION. Register, arithmetic and logic instructions (41_alu.md). Operands are read before any write (R91); results
are reduced mod 256 (R90). None of them changes `pc` beyond the fetch advance and none can fault. -/

namespace Sys2Proof.Machine

/-- LD Vx,kk (R92): `V[x] <- kk`. -/
def execLdImm (x : Nibble) (kk : Byte) (s : State) : Result := .next (s.setV x kk)

/-- ADD Vx,kk (R93): `V[x] <- (V[x] + kk) mod 256`, no flag. -/
def execAddImm (x : Nibble) (kk : Byte) (s : State) : Result := .next (s.setV x (s.getV x + kk))

/-- LD Vx,Vy (R94): `V[x] <- V[y]`. -/
def execLdReg (x y : Nibble) (s : State) : Result := .next (s.setV x (s.getV y))

/-- OR Vx,Vy (R95): `V[x] <- V[x] | V[y]`, no flag. -/
def execOrReg (x y : Nibble) (s : State) : Result := .next (s.setV x (s.getV x ||| s.getV y))

/-- AND Vx,Vy (R96): `V[x] <- V[x] & V[y]`, no flag. -/
def execAndReg (x y : Nibble) (s : State) : Result := .next (s.setV x (s.getV x &&& s.getV y))

/-- XOR Vx,Vy (R97): `V[x] <- V[x] ^ V[y]`, no flag. -/
def execXorReg (x y : Nibble) (s : State) : Result := .next (s.setV x (s.getV x ^^^ s.getV y))

/-- ADD Vx,Vy (R98): `V[x] <- (a + b) mod 256; V[0xF] <- (a + b > 255) ? 1 : 0`. -/
def execAddReg (x y : Nibble) (s : State) : Result :=
  .next (s.setResultAndFlag x (s.getV x + s.getV y) (carryFlag (s.getV x) (s.getV y)))

/-- SUB Vx,Vy (R99): `V[x] <- (a - b) mod 256; V[0xF] <- (a > b) ? 1 : 0`. -/
def execSubReg (x y : Nibble) (s : State) : Result :=
  .next (s.setResultAndFlag x (s.getV x - s.getV y) (greaterFlag (s.getV x) (s.getV y)))

/-- SHR Vx (R100): `V[x] <- a >> 1; V[0xF] <- a[0]`; the field `y` is ignored (30_encoding.md R69). -/
def execShr (x _y : Nibble) (s : State) : Result :=
  .next (s.setResultAndFlag x (s.getV x >>> 1) (lowBitFlag (s.getV x)))

/-- SUBN Vx,Vy (R101): `V[x] <- (b - a) mod 256; V[0xF] <- (b > a) ? 1 : 0`. -/
def execSubnReg (x y : Nibble) (s : State) : Result :=
  .next (s.setResultAndFlag x (s.getV y - s.getV x) (greaterFlag (s.getV y) (s.getV x)))

/-- SHL Vx (R102): `V[x] <- (a << 1) mod 256; V[0xF] <- a[7]`; the field `y` is ignored (30_encoding.md R69). -/
def execShl (x _y : Nibble) (s : State) : Result :=
  .next (s.setResultAndFlag x (s.getV x <<< 1) (highBitFlag (s.getV x)))

/-- RND Vx,kk (R103): `V[x] <- kk & rnd()`, a new draw at every execution (log 7). -/
def execRnd (x : Nibble) (kk : Byte) (s : State) : Result := .next ((s.setV x (kk &&& s.drawByte)).countDraw)

end Sys2Proof.Machine
end

