-- ==== Sys2Proof/Machine/ControlFlow.lean ====
section
/-! DEFINITION. Control-transfer instructions (40_control_flow.md). Every meaning sees `pc = a + 2`, `a` the address the
instruction was fetched from (10_state.md R17; log 14). -/

namespace Sys2Proof.Machine

/-- RET (R81): `pc <- Pop()`; StackUnderflow when `sp = 0` (R134). -/
def execRet (s : State) : Result :=
  match s.pop with
  | some (target, s') => .next (s'.setPc target)
  | none => raise .ret .stackUnderflow 0 s

/-- JP nnn (R82): `pc <- zext_16(nnn)`. -/
def execJp (nnn : Addr) (s : State) : Result := .next (s.setPc (zext16 nnn))

/-- CALL nnn (R83): `Push(pc); pc <- zext_16(nnn)`; StackOverflow when `sp = 16` (R133). -/
def execCall (nnn : Addr) (s : State) : Result :=
  match s.push s.pc with
  | some s' => .next (s'.setPc (zext16 nnn))
  | none => raise (.call nnn) .stackOverflow 0 s

/-- SE Vx,kk (R84): `if V[x] = kk then pc <- pc + 2`. -/
def execSeImm (x : Nibble) (kk : Byte) (s : State) : Result := .next (s.skipIf (s.getV x == kk))

/-- SNE Vx,kk (R85): `if V[x] != kk then pc <- pc + 2`. -/
def execSneImm (x : Nibble) (kk : Byte) (s : State) : Result := .next (s.skipIf (s.getV x != kk))

/-- SE Vx,Vy (R86): `if V[x] = V[y] then pc <- pc + 2`. -/
def execSeReg (x y : Nibble) (s : State) : Result := .next (s.skipIf (s.getV x == s.getV y))

/-- SNE Vx,Vy (R87): `if V[x] != V[y] then pc <- pc + 2`. -/
def execSneReg (x y : Nibble) (s : State) : Result := .next (s.skipIf (s.getV x != s.getV y))

/-- JP V0,nnn (R88): `pc <- zext_16(nnn) + zext_16(V[0])`, not reduced to 12 bits (D29, log 11). -/
def execJpV0 (nnn : Addr) (s : State) : Result := .next (s.setPc (zext16 nnn + zext16 (s.getV 0)))

end Sys2Proof.Machine
end

