-- ==== Sys2Proof/Machine/Display.lean ====
section
/-! DEFINITION. The XOR/collision unit and the display instructions (43_display.md). -/

namespace Sys2Proof.Machine

/-- `fb[Y][X]`: row first (43_display.md R115). -/
def Framebuffer.pixel (fb : Framebuffer) (Y : Fin 32) (X : Fin 64) : Bool := fb[Y][X]

/-- `fb[Y][X] <- fb[Y][X] ^ 1`. -/
def Framebuffer.flip (fb : Framebuffer) (Y : Fin 32) (X : Fin 64) : Framebuffer :=
  fb.set Y.val (fb[Y].set X.val (!fb[Y][X]))

/-- All 2048 pixels off (43_display.md R117). -/
def Framebuffer.clear : Framebuffer := Vector.replicate 32 (Vector.replicate 64 false)

/-- Sprite column `c` (0 to 7, leftmost first) of a sprite byte: bit `7 - c` (43_display.md R116; D5, log 4). -/
def spriteBit (row : Byte) (c : Nat) : Bool := row.getLsbD (if Config.spriteMsbLeft then 7 - c else c)

/-- The column a sprite column lands on, `(X0 + c) mod 64` (43_display.md R115). -/
def spriteX (x0 c : Nat) : Fin 64 := Fin.ofNat 64 (x0 + c)

/-- The row a sprite row lands on, `(Y0 + r) mod 32` (43_display.md R115). -/
def spriteY (y0 r : Nat) : Fin 32 := Fin.ofNat 32 (y0 + r)

/-- One sprite bit at pixel `(X, Y)`: a bit of 1 flips the pixel, and collides if the pixel was on before (R118). The pair
is the framebuffer and `coll`. -/
def drawBit (row : Byte) (Y : Fin 32) (x0 c : Nat) (d : Framebuffer × Bool) : Framebuffer × Bool :=
  if spriteBit row c then (d.1.flip Y (spriteX x0 c), d.2 || d.1.pixel Y (spriteX x0 c)) else d

/-- One sprite row: `for c = 0 .. 7` (R118). -/
def drawRow (row : Byte) (Y : Fin 32) (x0 : Nat) (d : Framebuffer × Bool) : Framebuffer × Bool :=
  (List.range 8).foldl (fun d c => drawBit row Y x0 c d) d

/-- The sprite rows from row `r` on: `for r = 0 .. n - 1` (R118). -/
def drawRows (x0 y0 : Nat) : Nat → List Byte → Framebuffer × Bool → Framebuffer × Bool
  | _, [], d => d
  | r, row :: rows, d => drawRows x0 y0 (r + 1) rows (drawRow row (spriteY y0 r) x0 d)

/-- A whole sprite at origin `(V[x] mod 64, V[y] mod 32)`: the framebuffer after, and whether any pixel went from on to off
(43_display.md R115, R118). -/
def drawSprite (vx vy : Byte) (rows : List Byte) (fb : Framebuffer) : Framebuffer × Bool :=
  drawRows (vx.toNat % 64) (vy.toNat % 32) 0 rows (fb, false)

/-- What DRW does with the framebuffer `drawn.1` and the collision `drawn.2` of the sprite: `fb` and VF are written and
`display_changed` is set (R118). -/
def State.showDrawn (s : State) (drawn : Framebuffer × Bool) : State :=
  ((s.setFb drawn.1).setFlag drawn.2).setDisplayChanged true

/-- CLS (R117): every pixel off; `display_changed` is not set (10_state.md R28). -/
def execCls (s : State) : Result := .next (s.setFb Framebuffer.clear)

/-- DRW Vx,Vy,n (R118): `n` sprite bytes at `I` drawn by exclusive OR at `(V[x] mod 64, V[y] mod 32)`; MemoryRange when
`n > 0` and `I + n - 1 > 4095`. -/
def execDrw (x y n : Nibble) (s : State) : Result :=
  match s.mem.read (s.effectiveAddr 0) n.toNat with
  | some rows => .next (s.showDrawn (drawSprite (s.getV x) (s.getV y) rows s.fb))
  | none => raise (.drw x y n) .memoryRange (firstOutOfRange (s.effectiveAddr 0)) s

end Sys2Proof.Machine
end

