-- ==== Sys2Proof/Machine/IndexMemory.lean ====
section
/-! DEFINITION. Index-pointer and memory instructions (42_index_memory.md). None of them changes `pc` beyond the fetch
advance, none writes VF as a flag, and `I` is the same after a transfer as before (R105). -/

namespace Sys2Proof.Machine

/-- LD I,nnn (R106): `I <- zext_16(nnn)`. -/
def execLdI (nnn : Addr) (s : State) : Result := .next (s.setI (zext16 nnn))

/-- ADD I,Vx (R107): `I <- (I + zext_16(V[x])) mod 65536`, no flag. -/
def execAddI (x : Nibble) (s : State) : Result := .next (s.setI (s.i + zext16 (s.getV x)))

/-- LD F,Vx (R108): `I <- 0x0050 + 5 * V[x][3:0]`. -/
def execLdF (x : Nibble) (s : State) : Result := .next (s.setI (glyphAddr (s.getV x)))

/-- `MemWrite(I, n, bytes)` as the whole effect of instruction `i`; MemoryRange when out of range (R105, R135). -/
def storeAtI (i : Instr) (bytes : List Byte) (s : State) : Result :=
  match s.mem.write (s.effectiveAddr 0) bytes with
  | some m => .next (s.setMem m)
  | none => raise i .memoryRange (firstOutOfRange (s.effectiveAddr 0)) s

/-- LD B,Vx (R109): `MemWrite(I, 3, [hundreds, tens, ones])`. -/
def execLdB (x : Nibble) (s : State) : Result := storeAtI (.ldB x) (bcdDigits (s.getV x)) s

/-- LD [I],Vx (R110): `MemWrite(I, x + 1, [V[0], ..., V[x]])`. -/
def execStoreRegs (x : Nibble) (s : State) : Result := storeAtI (.storeRegs x) (s.regsUpTo x) s

/-- LD Vx,[I] (R111): `[b0, ..., bx] <- MemRead(I, x + 1); V[k] <- bk for k = 0 .. x`. -/
def execLoadRegs (x : Nibble) (s : State) : Result :=
  match s.mem.read (s.effectiveAddr 0) (x.toNat + 1) with
  | some bytes => .next (s.setRegs (s.v.writeFrom 0 bytes))
  | none => raise (.loadRegs x) .memoryRange (firstOutOfRange (s.effectiveAddr 0)) s

end Sys2Proof.Machine
end

