-- ==== Sys2Proof/Machine/KeysTimers.lean ====
section
/-! DEFINITION. Key and timer instructions (44_keys_timers.md). None of them accesses memory or writes VF as a flag. -/

namespace Sys2Proof.Machine

/-- SKP Vx (R123): skip if key `V[x]` is pressed; KeyIndexRange when `V[x] > 15` (R122, R136; log 10). -/
def execSkp (x : Nibble) (s : State) : Result :=
  match s.keys.pressed? (s.getV x) with
  | some pressed => .next (s.skipIf pressed)
  | none => raise (.skp x) .keyIndexRange (s.getV x).toNat s

/-- SKNP Vx (R124): skip if key `V[x]` is not pressed; KeyIndexRange when `V[x] > 15` (R122, R136; log 10). -/
def execSknp (x : Nibble) (s : State) : Result :=
  match s.keys.pressed? (s.getV x) with
  | some pressed => .next (s.skipIf (!pressed))
  | none => raise (.sknp x) .keyIndexRange (s.getV x).toNat s

/-- LD Vx,DT (R125): `V[x] <- DT`. -/
def execLdVxDt (x : Nibble) (s : State) : Result := .next (s.setV x s.dt)

/-- LD Vx,K (R126): with no key pressed `pc <- pc - 2` and nothing else, so the instruction executes again; else `V[x]` takes
the lowest-indexed pressed key. -/
def execLdVxK (x : Nibble) (s : State) : Result :=
  match s.keys.lowestPressed with
  | some k => .next (s.setV x (BitVec.ofNat 8 k.val))
  | none => .next s.rewind

/-- LD DT,Vx (R127): `DT <- V[x]`. -/
def execLdDtVx (x : Nibble) (s : State) : Result := .next (s.setDt (s.getV x))

/-- LD ST,Vx (R128): `ST <- V[x]`. -/
def execLdStVx (x : Nibble) (s : State) : Result := .next (s.setSt (s.getV x))

end Sys2Proof.Machine
end

