-- ==== Sys2Proof/Machine/Step.lean ====
section
/-! DEFINITION. STEP, the execution of one instruction (30_encoding.md R73), and placing a word where STEP fetches. -/

namespace Sys2Proof.Machine

/-- STEP (30_encoding.md R73): a halted core does nothing (60_exceptions.md R142); a fault of the fetch or decode phase is
taken at the unchanged state; else the decoded instruction executes with `pc` advanced by 2. -/
def step (s : State) : Host.Outcome State Fault Refusal :=
  if s.halted then .next s
  else
    match s.fetchDecode with
    | .run i => exec i s.advance
    | .raised kind opcode addr => .next (s.latchFault kind opcode addr)

/-- `s` with the instruction whose bits are `w` (numbered as spec/opcode_table.json numbers them) stored at `pc` and `pc + 1`,
high byte first. On a core that is not halted and whose `pc` is at most 4094, the next `step` fetches and runs it; at
another `pc` no instruction can be fetched (20_memory.md R44) and nothing is stored. It stands for the driver's LOAD of
that word (log 18). -/
def State.withFetchWord (s : State) (nbits w : Nat) : State :=
  match s.mem.write s.pc.toNat (wordBytes (tableWord nbits w)) with
  | some m => s.setMem m
  | none => s

end Sys2Proof.Machine
end

