-- ==== Sys2Proof/Machine/Driver.lean ====
section
/-! DEFINITION. The frame sequencer and the driver's moves (10_state.md R34; 60_exceptions.md R146 to R149;
70_reset_and_hazards.md R160 to R163). Each move is one indivisible operation made between two core transitions
(00_scope.md R9; log 17). -/

namespace Sys2Proof.Machine

/-! ## Timers and frames -/

/-- One timer's decrement, floored at 0 (60_exceptions.md R146). -/
def tickTimer (t : Byte) : Byte := if t = 0 then 0 else t - 1

/-- TICK (60_exceptions.md R146). -/
def State.tick (s : State) : State := (s.setDt (tickTimer s.dt)).setSt (tickTimer s.st)

/-- The steps of a FRAME that are left, then the TICK; a fault ends the FRAME at once, without the TICK (60_exceptions.md
R147, R148). -/
def frameSteps : Nat → State → Result
  | 0, s => .next s.tick
  | n + 1, s =>
    match step s with
    | .next s' => if s'.halted then .next s' else frameSteps n s'
    | .fault r => .fault r
    | .refused r => .refused r

/-- FRAME(N) (60_exceptions.md R147): clear `display_changed`, `N` STEPs, TICK; nothing on a halted core (R142). -/
def frame (n : Nat) (s : State) : Result :=
  if s.halted then .next s else frameSteps n (s.setDisplayChanged false)

/-! ## RESET, LOAD, SETKEYS -/

/-- RESET (70_reset_and_hazards.md R160, 10_state.md R36): nothing survives. The model's own count of draws goes on, so
that the draws after a RESET are not those before it (log 7). -/
def resetMove (s : State) : State := { State.reset with draws := s.draws }

/-- LOAD(address, bytes) (70_reset_and_hazards.md R162); LoadRange when `address + len(bytes) > 4096` (60_exceptions.md R137);
nothing on a halted core (R142). -/
def loadMove (address : Nat) (bytes : List Byte) (s : State) : State :=
  if s.halted then s
  else if address + bytes.length > Config.memSize then s.latchFault .loadRange 0 0
  else s.setMem (s.mem.setBytes address bytes)

/-- SETKEYS(k) (60_exceptions.md R149); nothing on a halted core (R142). -/
def setKeysMove (k : Keys) (s : State) : State := if s.halted then s else s.setKeys k

/-- The driver's moves that change the state (10_state.md R34). -/
inductive Move where
  | reset
  | load (address : Nat) (bytes : List Byte)
  | setKeys (k : Keys)
  | step
  | frame (n : Nat)
deriving DecidableEq, Repr

/-- One driver move. -/
def Move.run : Move → State → Result
  | .reset, s => .next (resetMove s)
  | .load address bytes, s => .next (loadMove address bytes s)
  | .setKeys k, s => .next (setKeysMove k s)
  | .step, s => Sys2Proof.Machine.step s
  | .frame n, s => Sys2Proof.Machine.frame n s

/-- The state at which a program starts: RESET, then LOAD(0x200, image) (70_reset_and_hazards.md R163; log 18). -/
def launch (image : List Byte) : State := loadMove Config.programBase image State.reset

/-! ## Read-only views (10_state.md R34): they change nothing -/

/-- `framebuffer()`: the 2048 pixel bits (R27, R149). -/
def State.framebufferView (s : State) : Framebuffer := s.fb

/-- `displayChanged()` (R28, R149). -/
def State.displayChangedView (s : State) : Bool := s.displayChanged

/-- The fault status: `halted`, then `fault_kind`, `fault_pc`, `fault_opcode`, `fault_addr`, `fault_sp` in their widths
(R29). -/
def State.faultStatus (s : State) : Bool × BitVec 3 × Word × Word × BitVec 17 × BitVec 5 :=
  (s.halted, s.fault.kind.code, s.fault.pc, s.fault.opcode, s.fault.addr, BitVec.ofNat 5 s.fault.sp.val)

end Sys2Proof.Machine
end

