-- ==== Sys2Proof/Safety.lean ====
section
/-! DEFINITION. What claims are stated in terms of: the invariant of the machine, safe runs, the end of a run. -/

namespace Sys2Proof.Machine

/-- The record agrees with the latch (60_exceptions.md R138, R139, R142): while not halted it is clear; once halted it names a
kind, and its `pc` and `sp` are those of the frozen state. -/
def State.FaultConsistent (s : State) : Prop :=
  (s.halted = false → s.fault = .clear) ∧
  (s.halted = true → s.fault.kind ≠ .none ∧ s.fault.pc = s.pc ∧ s.fault.sp = s.sp)

/-- The return addresses in use are addresses after a fetched instruction (40_control_flow.md R81): `2` to `0x1000`. -/
def State.ReturnsFetched (s : State) : Prop :=
  ∀ (k : Nat) (h : k < 16), k < s.sp.val → 2 ≤ (s.stack[k]).toNat ∧ (s.stack[k]).toNat ≤ 0x1000

/-- The invariant of the machine: memory is in canonical form (20_memory.md R40), the fault record agrees with the latch,
`pc` is at most 0x10FE (10_state.md R18, R19), live return addresses are at most 0x1000 (40_control_flow.md R81). -/
def State.Inv (s : State) : Prop :=
  s.mem.wf ∧ s.FaultConsistent ∧ s.pc.toNat ≤ 0x10FE ∧ s.ReturnsFetched

/-- `n` STEPs from `s` never halt the core (60_exceptions.md R142: a halted state is never a final state of a successful
run). -/
def SafeFor : Nat → State → Prop
  | 0, s => s.halted = false
  | n + 1, s => s.halted = false ∧ ∃ s', step s = .next s' ∧ SafeFor n s'

/-- The convention for the end of a run: `pc` holds the address of a `JP` to itself (70_reset_and_hazards.md R170). -/
def State.finished (s : State) : Prop := ∃ nnn : Addr, s.fetchDecode = .run (.jp nnn) ∧ s.pc = zext16 nnn

end Sys2Proof.Machine
end

