-- ==== Sys2Proof/Certificates/Slice0/Obligations.lean ====
section
/-! DEFINITION. The statements for the provers. `exec` sees `pc = a + 2` (30_encoding.md R73; log 14), so `s.pc - 2` below is
the address of the instruction that executes. A conclusion of the form `exec i s = .next t` with every field of `t` given
is the instruction's result, its completion and its frame at once. Wherever a statement below says that a fault leaves a NEXT
state, that form of the outcome is log 12 (DEDUCED). -/

namespace Sys2Proof.Claims

open Sys2Proof.Machine

/-- The machine state after a fault of the instruction that executes (60_exceptions.md R138, R139): `pc` is back at the
instruction, the latch is set, the record is written, nothing else changes. That a fault IS a next state is the model's reading
(DEDUCED, log 12). -/
def faulted (s : State) (kind : FaultKind) (opcode : Word) (addr : BitVec 17) : State :=
  { s with pc := s.pc - 2, halted := true,
           fault := { kind := kind, pc := s.pc - 2, opcode := opcode, addr := addr, sp := s.sp } }

/-- `i` completes with `result` in `V[x]` (lost when `x` is VF), `flag` in VF, and nothing else changed. -/
def WritesResultAndFlag (i : Instr) (s : State) (x : Nibble) (result flag : Nat) : Prop :=
  ∃ t, exec i s = .next t ∧ (x ≠ 0xF → (t.getV x).toNat = result) ∧ (t.getV 0xF).toNat = flag ∧
    (∀ q, q ≠ x → q ≠ 0xF → t.getV q = s.getV q) ∧ t = { s with v := t.v }

/-- `i` completes with `P` true of the new `V[x]`, and nothing else changed. -/
def WritesRegister (i : Instr) (s : State) (x : Nibble) (P : Byte → Prop) : Prop :=
  ∃ t, exec i s = .next t ∧ P (t.getV x) ∧ t = s.setV x (t.getV x)

/-- How many bytes an instruction stores, from `I` upward (20_memory.md R47). -/
def storedBytes : Instr → Nat
  | .ldB _ => 3
  | .storeRegs x => x.toNat + 1
  | _ => 0

/-- How many bytes an instruction transfers through `I`, read or written (42_index_memory.md R105). -/
def transferredBytes : Instr → Nat
  | .drw _ _ n => n.toNat
  | .ldB _ => 3
  | .storeRegs x | .loadRegs x => x.toNat + 1
  | _ => 0

/-- The registers an instruction may write (10_state.md R15, R38). -/
def mayWrite (i : Instr) (q : Nibble) : Prop :=
  match i with
  | .ldImm x _ | .addImm x _ | .ldReg x _ | .orReg x _ | .andReg x _ | .xorReg x _ | .rnd x _ | .ldVxDt x | .ldVxK x =>
    q = x
  | .addReg x _ | .subReg x _ | .shr x _ | .subnReg x _ | .shl x _ => q = x ∨ q = 0xF
  | .drw _ _ _ => q = 0xF
  | .loadRegs x => q.toNat ≤ x.toNat
  | _ => False

/-- `pc` after the step of an instruction that completes, from the state before the step (10_state.md R18). -/
def pcAfter (i : Instr) (s : State) : Word :=
  match i with
  | .ret => s.stack[s.sp.val - 1]'(by have := s.sp.isLt; omega)
  | .jp nnn | .call nnn => zext16 nnn
  | .jpV0 nnn => zext16 nnn + zext16 (s.getV 0)
  | .seImm x kk => if s.getV x = kk then s.pc + 4 else s.pc + 2
  | .sneImm x kk => if s.getV x ≠ kk then s.pc + 4 else s.pc + 2
  | .seReg x y => if s.getV x = s.getV y then s.pc + 4 else s.pc + 2
  | .sneReg x y => if s.getV x ≠ s.getV y then s.pc + 4 else s.pc + 2
  | .skp x => if s.keys[(s.getV x).toNat]? = some true then s.pc + 4 else s.pc + 2
  | .sknp x => if s.keys[(s.getV x).toNat]? = some true then s.pc + 2 else s.pc + 4
  | .ldVxK _ => if ∀ k : Fin 16, s.keys[k] = false then s.pc else s.pc + 2
  | _ => s.pc + 2

/-- The sprite of `DRW Vx,Vy,n` has a bit of 1 on pixel `(X, Y)` (43_display.md R115, R116, R118). -/
def SpriteCovers (s : State) (x y n : Nibble) (Y : Fin 32) (X : Fin 64) : Prop :=
  ∃ r c : Nat, r < n.toNat ∧ c < 8 ∧ Y.val = ((s.getV y).toNat % 32 + r) % 32 ∧
    X.val = ((s.getV x).toNat % 64 + c) % 64 ∧ (s.mem.byteAt (s.i.toNat + r)).getLsbD (7 - c) = true

/-- What the driver must see for a step of a running core to end in a fault (70_reset_and_hazards.md R174). -/
def BreaksALimit (s : State) : Prop :=
  4094 < s.pc.toNat ∨
  (∃ w c, s.fetchWord = some w ∧ decode w = .illegal c) ∨
  (∃ i, s.fetchDecode = .run i ∧
    ((∃ nnn, i = .call nnn) ∧ s.sp.val = 16 ∨ i = .ret ∧ s.sp.val = 0 ∨
     (∃ x, (i = .skp x ∨ i = .sknp x) ∧ 15 < (s.getV x).toNat) ∨
     (0 < transferredBytes i ∧ 4096 < s.i.toNat + transferredBytes i)))

end Sys2Proof.Claims

open Sys2Proof Sys2Proof.Machine Sys2Proof.Claims

/-! ## Control flow -/

/-- 40_control_flow.md R82, R88: `JP nnn` sets `pc` to `nnn`; `JP V0,nnn` to `nnn + V0`, which is not reduced. -/
def Obligations.JumpsSetProgramCounter : Prop :=
  ∀ (nnn : Addr) (s : State),
    exec (.jp nnn) s = .next { s with pc := nnn.setWidth 16 } ∧
    ∃ t, exec (.jpV0 nnn) s = .next t ∧ t.pc.toNat = nnn.toNat + (s.getV 0).toNat ∧ t = { s with pc := t.pc }

/-- 40_control_flow.md R83 with 10_state.md R22 and 60_exceptions.md R133: `CALL nnn` pushes the address after itself; the
seventeenth nested call faults. The depth count is the spec's decision D9 (log 8), the state a fault leaves D15 and D16
(log 13). -/
def Obligations.CallPushesReturnAddress : Prop :=
  ∀ (nnn : Addr) (s : State),
    (∀ h : s.sp.val < 16, exec (.call nnn) s = .next
      { s with stack := s.stack.set s.sp.val s.pc h, sp := ⟨s.sp.val + 1, by omega⟩, pc := nnn.setWidth 16 }) ∧
    (s.sp.val = 16 → s.halted = false →
      exec (.call nnn) s = .next (faulted s .stackOverflow (0x2#4 ++ nnn) 0))

/-- 40_control_flow.md R81 with 10_state.md R23 and 60_exceptions.md R134: `RET` pops into `pc`; on an empty stack it faults
(the state a fault leaves is D15 and D16, log 13). -/
def Obligations.RetPopsReturnAddress : Prop :=
  ∀ s : State,
    (∀ h : 0 < s.sp.val, exec .ret s = .next
      { s with pc := s.stack[s.sp.val - 1]'(by omega), sp := ⟨s.sp.val - 1, by omega⟩ }) ∧
    (s.sp.val = 0 → s.halted = false → exec .ret s = .next (faulted s .stackUnderflow 0x00EE 0))

/-- 40_control_flow.md R84 to R87: the four compare-and-skip instructions. -/
def Obligations.ComparesSkipOneInstruction : Prop :=
  ∀ (x y : Nibble) (kk : Byte) (s : State),
    exec (.seImm x kk) s = .next { s with pc := if s.getV x = kk then s.pc + 2 else s.pc } ∧
    exec (.sneImm x kk) s = .next { s with pc := if s.getV x = kk then s.pc else s.pc + 2 } ∧
    exec (.seReg x y) s = .next { s with pc := if s.getV x = s.getV y then s.pc + 2 else s.pc } ∧
    exec (.sneReg x y) s = .next { s with pc := if s.getV x = s.getV y then s.pc else s.pc + 2 }

/-- 10_state.md section 3, the table of R18: where each instruction leaves `pc`, and that a faulting step leaves it unchanged.
The row of the faulting steps rests on 60_exceptions.md R139 (decision D15, log 13), and that such a step answers a next state
at all is log 12 (DEDUCED). -/
def Obligations.StepLeavesProgramCounterPerTable : Prop :=
  ∀ s : State, s.halted = false → ∃ t, step s = .next t ∧
    (t.halted = true → t.pc = s.pc) ∧
    (t.halted = false → ∃ i, s.fetchDecode = .run i ∧ t.pc = pcAfter i s ∧
      (∀ nnn, i = .call nnn → t.stack[s.sp.val]? = some (s.pc + 2)))

/-- The source's property E4 (95_test_vectors.md) and 40_control_flow.md section 2: `CALL` then `RET` comes back to the
instruction after the `CALL`; only the popped entry, which is dead, differs (10_state.md R23). -/
def Obligations.CallThenRetReturns : Prop :=
  ∀ (s t : State) (nnn : Addr), s.halted = false → ∀ hsp : s.sp.val < 16, s.fetchDecode = .run (.call nnn) →
    step s = .next t → t.fetchDecode = .run .ret →
    step t = .next { s with pc := s.pc + 2, stack := s.stack.set s.sp.val (s.pc + 2) hsp }

/-- 70_reset_and_hazards.md R170 (a convention of the spec's own, D30): at a `JP` to itself every STEP changes nothing, and
a FRAME only clears `display_changed` and ticks the timers. -/
def Obligations.SelfJumpIsAFixedPoint : Prop :=
  ∀ s : State, s.halted = false → s.finished →
    step s = .next s ∧ ∀ n, frame n s = .next ({ s with displayChanged := false } : State).tick

/-! ## Registers, arithmetic, logic -/

/-- 41_alu.md R92, R94: `LD Vx,kk` and `LD Vx,Vy`. -/
def Obligations.LoadsWriteOneRegister : Prop :=
  ∀ (x y : Nibble) (kk : Byte) (s : State),
    exec (.ldImm x kk) s = .next { s with v := s.v.set x.toNat kk x.isLt } ∧
    exec (.ldReg x y) s = .next { s with v := s.v.set x.toNat (s.v[y.toNat]'y.isLt) x.isLt }

/-- 41_alu.md R93: `ADD Vx,kk` adds mod 256 and writes no flag. -/
def Obligations.AddImmediateWrapsWithoutFlag : Prop :=
  ∀ (x : Nibble) (kk : Byte) (s : State),
    WritesRegister (.addImm x kk) s x (fun r => r.toNat = ((s.getV x).toNat + kk.toNat) % 256)

/-- 41_alu.md R95, R96, R97: OR, AND, XOR work bit by bit on all 8 bits and write no flag. -/
def Obligations.LogicWorksBitwiseWithoutFlag : Prop :=
  ∀ (x y : Nibble) (s : State),
    WritesRegister (.orReg x y) s x (fun r => ∀ b, r.getLsbD b = ((s.getV x).getLsbD b || (s.getV y).getLsbD b)) ∧
    WritesRegister (.andReg x y) s x (fun r => ∀ b, r.getLsbD b = ((s.getV x).getLsbD b && (s.getV y).getLsbD b)) ∧
    WritesRegister (.xorReg x y) s x (fun r => ∀ b, r.getLsbD b = ((s.getV x).getLsbD b ^^ (s.getV y).getLsbD b))

/-- 41_alu.md R98, R99, R101: ADD, SUB and SUBN wrap mod 256 and write the carry or strictly-greater flag. That operands are
read first and the flag is written last, so that it survives when `x` is VF, is the spec's decision D10, D11 (log 9). -/
def Obligations.ArithmeticWrapsAndWritesFlag : Prop :=
  ∀ (x y : Nibble) (s : State),
    let a := (s.getV x).toNat
    let b := (s.getV y).toNat
    WritesResultAndFlag (.addReg x y) s x ((a + b) % 256) (if a + b > 255 then 1 else 0) ∧
    WritesResultAndFlag (.subReg x y) s x ((a + 256 - b) % 256) (if a > b then 1 else 0) ∧
    WritesResultAndFlag (.subnReg x y) s x ((b + 256 - a) % 256) (if b > a then 1 else 0)

/-- 41_alu.md R100, R102: SHR and SHL shift by one and put the bit shifted out in VF; the field `y` is ignored
(30_encoding.md R69, decision D12, log 15); the flag survives when `x` is VF (D11, log 9). -/
def Obligations.ShiftsWriteBitShiftedOut : Prop :=
  ∀ (x y : Nibble) (s : State),
    let a := (s.getV x).toNat
    WritesResultAndFlag (.shr x y) s x (a / 2) (a % 2) ∧
    WritesResultAndFlag (.shl x y) s x (2 * a % 256) (a / 128)

/-- 41_alu.md R103: `RND Vx,kk` writes the draw masked with `kk`, whatever the draw. The count of draws that moves on is
the model's own field (log 7). -/
def Obligations.RandomByteIsMasked : Prop :=
  ∀ (x : Nibble) (kk : Byte) (s : State), ∃ t, exec (.rnd x kk) s = .next t ∧
    t.getV x = kk &&& Config.rnd s.draws ∧ (∀ q, q ≠ x → t.getV q = s.getV q) ∧
    t = { s with v := t.v, draws := s.draws + 1 }

/-- 10_state.md R38 (with R15): an instruction changes no register but those the rule names for it. -/
def Obligations.OnlyNamedRegistersAreWritten : Prop :=
  ∀ (i : Instr) (s t : State), exec i s = .next t → ∀ q : Nibble, ¬ mayWrite i q → t.getV q = s.getV q

/-! ## Index pointer and memory -/

/-- 42_index_memory.md R106, R107, R108: `LD I,nnn`, `ADD I,Vx`, `LD F,Vx` write `I` and nothing else. -/
def Obligations.IndexPointerWrites : Prop :=
  ∀ (nnn : Addr) (x : Nibble) (s : State),
    (∃ t, exec (.ldI nnn) s = .next t ∧ t.i.toNat = nnn.toNat ∧ t = { s with i := t.i }) ∧
    (∃ t, exec (.addI x) s = .next t ∧ t.i.toNat = (s.i.toNat + (s.getV x).toNat) % 65536 ∧ t = { s with i := t.i }) ∧
    (∃ t, exec (.ldF x) s = .next t ∧ t.i.toNat = 0x50 + 5 * ((s.getV x).toNat % 16) ∧ t = { s with i := t.i })

/-- 42_index_memory.md section 2 (`LD B,Vx`): the decimal digits at `I`, `I + 1`, `I + 2`, every other byte and everything
else unchanged. -/
def Obligations.BcdStoresThreeDigits : Prop :=
  ∀ (x : Nibble) (s : State), s.i.toNat + 2 ≤ 4095 → ∃ t, exec (.ldB x) s = .next t ∧
    (t.mem.byteAt (s.effectiveAddr 0)).toNat = (s.getV x).toNat / 100 ∧
    (t.mem.byteAt (s.effectiveAddr 1)).toNat = (s.getV x).toNat / 10 % 10 ∧
    (t.mem.byteAt (s.effectiveAddr 2)).toNat = (s.getV x).toNat % 10 ∧
    (∀ a, (a < s.effectiveAddr 0 ∨ s.effectiveAddr 3 ≤ a) → t.mem.byteAt a = s.mem.byteAt a) ∧
    t = { s with mem := t.mem }

/-- 42_index_memory.md section 2 (`LD [I],Vx`): `V[k]` at `I + k` for `k = 0 .. x`, every other byte and everything else
unchanged, `I` among it. -/
def Obligations.StoreRegistersFromV0 : Prop :=
  ∀ (x : Nibble) (s : State), s.i.toNat + x.toNat ≤ 4095 → ∃ t, exec (.storeRegs x) s = .next t ∧
    (∀ k : Nibble, k.toNat ≤ x.toNat → t.mem.byteAt (s.effectiveAddr k.toNat) = s.getV k) ∧
    (∀ a, (a < s.effectiveAddr 0 ∨ s.effectiveAddr (x.toNat + 1) ≤ a) → t.mem.byteAt a = s.mem.byteAt a) ∧
    t = { s with mem := t.mem }

/-- 42_index_memory.md section 2 (`LD Vx,[I]`): `mem[I + k]` into `V[k]` for `k = 0 .. x`, the registers above `x` and
everything else unchanged. -/
def Obligations.LoadRegistersFromV0 : Prop :=
  ∀ (x : Nibble) (s : State), s.i.toNat + x.toNat ≤ 4095 → ∃ t, exec (.loadRegs x) s = .next t ∧
    (∀ k : Nibble, k.toNat ≤ x.toNat → t.getV k = s.mem.byteAt (s.effectiveAddr k.toNat)) ∧
    (∀ k : Nibble, x.toNat < k.toNat → t.getV k = s.getV k) ∧
    t = { s with v := t.v }

/-- 42_index_memory.md section 1, 20_memory.md section 1 (decisions D14, D15; log 11, log 13): a transfer through `I` that
reaches past 4095 moves nothing and faults with MemoryRange. -/
def Obligations.TransferPastMemoryFaults : Prop :=
  ∀ (x y n : Nibble) (s : State), s.halted = false →
    (4095 < s.i.toNat + 2 → exec (.ldB x) s = .next
      (faulted s .memoryRange (0xF#4 ++ x ++ 0x33#8) (BitVec.ofNat 17 (max s.i.toNat 4096)))) ∧
    (4095 < s.i.toNat + x.toNat → exec (.storeRegs x) s = .next
      (faulted s .memoryRange (0xF#4 ++ x ++ 0x55#8) (BitVec.ofNat 17 (max s.i.toNat 4096)))) ∧
    (4095 < s.i.toNat + x.toNat → exec (.loadRegs x) s = .next
      (faulted s .memoryRange (0xF#4 ++ x ++ 0x65#8) (BitVec.ofNat 17 (max s.i.toNat 4096)))) ∧
    (0 < n.toNat → 4096 < s.i.toNat + n.toNat → exec (.drw x y n) s = .next
      (faulted s .memoryRange (0xD#4 ++ x ++ y ++ n) (BitVec.ofNat 17 (max s.i.toNat 4096))))

/-- 20_memory.md R47, R51, R52: no instruction changes a byte of memory but those it stores, which start at `I`; an
instruction that stores none changes none. -/
def Obligations.OnlyStoredBytesChange : Prop :=
  ∀ (i : Instr) (s t : State), exec i s = .next t → ∀ a : Nat,
    (a < s.effectiveAddr 0 ∨ s.effectiveAddr (storedBytes i) ≤ a) → t.mem.byteAt a = s.mem.byteAt a

/-- Two memories in canonical form that read the same at every address are the same data (20_memory.md section 1: memory
is its 4096 bytes). The canonical form is the model's. -/
def Obligations.CanonicalMemoryIsItsBytes : Prop :=
  ∀ m m' : Memory, m.wf → m'.wf → (∀ a, a < 4096 → m.byteAt a = m'.byteAt a) → m = m'

/-- 20_memory.md section 6 (decision D28, log 15): a store is seen by the very next fetch. -/
def Obligations.StoreIsSeenByNextFetch : Prop :=
  ∀ (x k k' : Nibble) (s t : State), s.halted = false → exec (.storeRegs x) s = .next t → t.halted = false →
    k'.toNat = k.toNat + 1 → k'.toNat ≤ x.toNat → t.pc.toNat = s.effectiveAddr k.toNat →
    t.fetchWord = some (s.getV k ++ s.getV k')

/-! ## Display -/

/-- 43_display.md R117: CLS turns every pixel off and changes nothing else, `display_changed` and VF among it. -/
def Obligations.ClsTurnsEveryPixelOff : Prop :=
  ∀ s : State, ∃ t, exec .cls s = .next t ∧ (∀ Y X, t.fb.pixel Y X = false) ∧ t = { s with fb := t.fb }

/-- 43_display.md sections 1 and 2 (`DRW Vx,Vy,n`): pixel by pixel, exactly the pixels under a sprite bit of 1 are inverted,
VF is 1 exactly when one of them was on, `display_changed` is set, nothing else changes. Bit 7 leftmost is D5 (log 4); a
sprite of 0 rows is D25 (log 15). -/
def Obligations.DrwInvertsExactlyTheSprite : Prop :=
  ∀ (x y n : Nibble) (s : State), (n.toNat = 0 ∨ s.i.toNat + n.toNat ≤ 4096) → ∃ t, exec (.drw x y n) s = .next t ∧
    (∀ Y X, SpriteCovers s x y n Y X → t.fb.pixel Y X = !s.fb.pixel Y X) ∧
    (∀ Y X, ¬ SpriteCovers s x y n Y X → t.fb.pixel Y X = s.fb.pixel Y X) ∧
    ((∃ Y X, SpriteCovers s x y n Y X ∧ s.fb.pixel Y X = true) → t.getV 0xF = 1) ∧
    ((∀ Y X, SpriteCovers s x y n Y X → s.fb.pixel Y X = false) → t.getV 0xF = 0) ∧
    (∀ q, q ≠ 0xF → t.getV q = s.getV q) ∧ t.displayChanged = true ∧
    t = { s with v := t.v, fb := t.fb, displayChanged := t.displayChanged }

/-- 43_display.md section 2, corner case (f) of `DRW`: the same sprite drawn a second time at the same place restores the
display. Its collision is R118's own: it reports 1 exactly when a pixel under the sprite was off before the first draw, so
over a display that is clear there, exactly when the sprite has a bit of 1 (corner case (f) read so; log 22). With `x` or
`y` VF the place is the same when the first draw left VF as it was (corner case (d)). -/
def Obligations.DrawingTwiceRestoresTheDisplay : Prop :=
  ∀ (x y n : Nibble) (s t : State), (n.toNat = 0 ∨ s.i.toNat + n.toNat ≤ 4096) → exec (.drw x y n) s = .next t →
    t.getV x = s.getV x → t.getV y = s.getV y →
    ∃ u, exec (.drw x y n) t = .next u ∧ u.fb = s.fb ∧
      (u.getV 0xF = 1 ↔ ∃ Y X, SpriteCovers s x y n Y X ∧ s.fb.pixel Y X = false)

/-- 10_state.md section 8 and the source's property E7: `display_changed` is set after a FRAME only if one of its steps
executed a `DRW`. -/
def Obligations.DisplayChangedOnlyByDrw : Prop :=
  ∀ (n : Nat) (s t : State), s.halted = false → frame n s = .next t → t.displayChanged = true →
    ∃ k u x y m, k < n ∧ Host.Core.run Sys2Proof.core k { s with displayChanged := false } = .next u ∧
      u.fetchDecode = .run (.drw x y m)

/-! ## Keys and timers -/

/-- 44_keys_timers.md sections 1 and 2 (`SKP`, `SKNP`): skip on the snapshot of key `V[x]`. That a number above 15 is a
fault is the spec's decision D13 (log 10); the state a fault leaves is D15 and D16 (log 13). -/
def Obligations.KeySkipsReadTheSnapshot : Prop :=
  ∀ (x : Nibble) (s : State),
    (∀ h : (s.getV x).toNat < 16,
      exec (.skp x) s = .next { s with pc := if s.keys[(s.getV x).toNat] then s.pc + 2 else s.pc } ∧
      exec (.sknp x) s = .next { s with pc := if s.keys[(s.getV x).toNat] then s.pc else s.pc + 2 }) ∧
    (15 < (s.getV x).toNat → s.halted = false →
      exec (.skp x) s = .next (faulted s .keyIndexRange (0xE#4 ++ x ++ 0x9E#8) ((s.getV x).setWidth 17)) ∧
      exec (.sknp x) s = .next (faulted s .keyIndexRange (0xE#4 ++ x ++ 0xA1#8) ((s.getV x).setWidth 17)))

/-- 44_keys_timers.md R126: `LD Vx,K` repeats while no key is pressed (the step then changes nothing at all), else writes
the lowest-indexed pressed key. -/
def Obligations.KeyWaitRepeatsUntilAKey : Prop :=
  ∀ (x : Nibble) (s : State),
    ((∀ k : Fin 16, s.keys[k] = false) → exec (.ldVxK x) s = .next { s with pc := s.pc - 2 } ∧
      (s.halted = false → s.fetchDecode = .run (.ldVxK x) → step s = .next s)) ∧
    (∀ k : Fin 16, s.keys[k] = true → (∀ j : Fin 16, j < k → s.keys[j] = false) →
      exec (.ldVxK x) s = .next (s.setV x (BitVec.ofNat 8 k.val)))

/-- 44_keys_timers.md section 2, corner cases (b), (c), (d) of `LD Vx,K`: a FRAME of any length that starts blocked on the
key wait makes no progress, and its TICK still happens. -/
def Obligations.BlockedKeyWaitUsesUpTheFrame : Prop :=
  ∀ (n : Nat) (x : Nibble) (s : State), s.halted = false → s.fetchDecode = .run (.ldVxK x) →
    (∀ k : Fin 16, s.keys[k] = false) → frame n s = .next ({ s with displayChanged := false } : State).tick

/-- 44_keys_timers.md R125, R127, R128: the moves between a register and a timer. -/
def Obligations.TimerMoves : Prop :=
  ∀ (x : Nibble) (s : State),
    exec (.ldVxDt x) s = .next { s with v := s.v.set x.toNat s.dt x.isLt } ∧
    exec (.ldDtVx x) s = .next { s with dt := s.v[x.toNat]'x.isLt } ∧
    exec (.ldStVx x) s = .next { s with st := s.v[x.toNat]'x.isLt }

/-- 60_exceptions.md R146: TICK takes 1 from each timer, floored at 0, and changes nothing else. -/
def Obligations.TickDecrementsFlooredAtZero : Prop :=
  ∀ s : State, s.tick.dt.toNat = s.dt.toNat - 1 ∧ s.tick.st.toNat = s.st.toNat - 1 ∧
    s.tick = { s with dt := s.tick.dt, st := s.tick.st }

/-- 70_reset_and_hazards.md section 3 and the source's property E10: after `n` ticks a timer has gone down by `n` or is at
0, and after 255 it is at 0 and stays there. -/
def Obligations.TimersReachZeroAndStay : Prop :=
  ∀ (n : Nat) (s : State),
    (State.tick^[n] s).dt.toNat = s.dt.toNat - n ∧ (State.tick^[n] s).st.toNat = s.st.toNat - n ∧
    (255 ≤ n → (State.tick^[n] s).dt = 0 ∧ (State.tick^[n] s).st = 0)

/-- 60_exceptions.md section 4, the pseudocode of R147: FRAME(N) clears `display_changed`, makes `N` STEPs and one TICK. That a
fault in one of the steps ends it without the TICK is also R148 (decision D18, log 13), that a halted core does nothing R142
(decision D17, log 13), and that a run with a faulting or halted step still answers a next state is log 12 (DEDUCED). -/
def Obligations.FrameIsStepsThenTick : Prop :=
  ∀ (n : Nat) (s : State),
    (s.halted = true → frame n s = .next s) ∧
    (s.halted = false → ∃ t, Host.Core.run Sys2Proof.core n { s with displayChanged := false } = .next t ∧
      frame n s = .next (if t.halted then t else t.tick))

/-! ## The cycle, faults, the whole machine -/

/-- 30_encoding.md section 5 (the four outcomes of STEP; the fault records are D16, log 13): a halted core does nothing; a
fetch past memory and an illegal word fault at the unchanged state; else `step` is `exec` of the decoded instruction at
the state with `pc` advanced by 2. -/
def Obligations.StepRunsTheDecodedInstruction : Prop :=
  ∀ s : State,
    (s.halted = true → step s = .next s) ∧
    (s.halted = false →
      let a := s.pc.toNat
      let w : Word := s.mem.byteAt a ++ s.mem.byteAt (a + 1)
      (4094 < a → step s = .next { s with halted := true, fault :=
        { kind := .memoryRange, pc := s.pc, opcode := 0, addr := BitVec.ofNat 17 (max a 4096), sp := s.sp } }) ∧
      (a ≤ 4094 → ∀ c, decode w = .illegal c → step s = .next { s with halted := true, fault :=
        { kind := .decodeError, pc := s.pc, opcode := w, addr := 0, sp := s.sp } }) ∧
      (a ≤ 4094 → ∀ i, decode w = .insn i → step s = exec i { s with pc := s.pc + 2 }))

/-- Every step, and every move of the driver, has a next state. That the fault outcome of a step is a next state, with the
latch set, is the model's reading and not the spec's word (DEDUCED, log 12): 00_scope.md R8 (section 5) gives a step two
outcomes and speaks of a next state for normal completion alone, and 60_exceptions.md sections 1 and 2 give the whole state a
fault leaves. The driver's moves are those of 60_exceptions.md sections 4 and 5 and 70_reset_and_hazards.md section 1. -/
def Obligations.EveryMoveHasANextState : Prop :=
  (∀ s : State, ∃ t, step s = .next t) ∧ ∀ (m : Move) (s : State), ∃ t, m.run s = .next t

/-- 60_exceptions.md section 2 (precise faults, decision D15; record D16; log 13): a step that faults changes nothing but
the latch and the record, whose `pc` and `sp` are those of the state. -/
def Obligations.FaultsArePrecise : Prop :=
  ∀ s t : State, s.halted = false → step s = .next t → t.halted = true →
    t = { s with halted := true, fault := t.fault } ∧ t.fault.pc = s.pc ∧ t.fault.sp = s.sp ∧
    t.fault.kind ≠ .none ∧ t.fault.kind ≠ .loadRange

/-- 70_reset_and_hazards.md section 2 (the resource limits, R174) with 60_exceptions.md sections 1 and 2 (what is and what is
not a fault): a step of a running core faults exactly when a resource limit is exceeded. The spec's decisions behind the
limits are D1 and D3 for the illegal words (logs 1, 2), D9 for the depth (log 8), D13 for the key number (log 10), D14 for
the addresses (log 11); that the fault is a next state with the latch set is log 12. -/
def Obligations.StepFaultsExactlyPastALimit : Prop :=
  ∀ s t : State, s.halted = false → step s = .next t → (t.halted = true ↔ BreaksALimit s)

/-- 60_exceptions.md section 2 (a halted core does nothing, decision D17, log 13): every move but RESET leaves a halted core
exactly as it is, and RESET gives the reset state (the model's own count of draws goes on, log 7). -/
def Obligations.HaltedCoreIsFrozenUntilReset : Prop :=
  ∀ s : State, (s.halted = true → ∀ m : Move, m ≠ .reset → m.run s = .next s) ∧
    Move.reset.run s = .next { State.reset with draws := s.draws }

/-- 10_state.md section 1, column "written by": each element changes only by the instructions the table names for it. -/
def Obligations.ElementsChangeOnlyByTheirWriters : Prop :=
  ∀ (i : Instr) (s t : State), s.halted = false → exec i s = .next t →
    t.keys = s.keys ∧
    (t.i ≠ s.i → (∃ nnn, i = .ldI nnn) ∨ (∃ x, i = .addI x) ∨ ∃ x, i = .ldF x) ∧
    (t.stack ≠ s.stack → ∃ nnn, i = .call nnn) ∧
    (t.sp ≠ s.sp → (∃ nnn, i = .call nnn) ∨ i = .ret) ∧
    (t.dt ≠ s.dt → ∃ x, i = .ldDtVx x) ∧
    (t.st ≠ s.st → ∃ x, i = .ldStVx x) ∧
    (t.mem ≠ s.mem → (∃ x, i = .ldB x) ∨ ∃ x, i = .storeRegs x) ∧
    (t.fb ≠ s.fb → i = .cls ∨ ∃ x y n, i = .drw x y n) ∧
    (t.displayChanged ≠ s.displayChanged → (∃ x y n, i = .drw x y n) ∧ t.displayChanged = true) ∧
    (t.fault ≠ s.fault → t.halted = true)

/-- 10_state.md sections 6 and 8: no instruction reads `ST` or `display_changed`, so two states that differ only there give
steps that differ only there. That both steps answer a next state, faulting ones too, is log 12 (DEDUCED). -/
def Obligations.SoundTimerAndHintAreNeverRead : Prop :=
  ∀ (s : State) (v : Byte) (d : Bool), ∃ t t', step s = .next t ∧
    step { s with st := v, displayChanged := d } = .next t' ∧
    t' = { t with st := t'.st, displayChanged := t'.displayChanged }

/-- The invariant of the machine (10_state.md sections 3 and 5, 20_memory.md section 1, 60_exceptions.md section 2) holds
after RESET. The reset values are the spec's decisions D6, D7, D16 (logs 5, 13), the canonical form is the model's (log 19). -/
def Obligations.ResetHasTheInvariant : Prop := State.reset.Inv

/-- Every STEP keeps the invariant: canonical memory, a fault record that agrees with the latch, `pc` at most 0x10FE, live
return addresses between 2 and 0x1000 (10_state.md section 3: `pc` never wraps, which the spec marks as derived). What a fault
leaves is D15, D16 (log 13) and a next state by log 12 (DEDUCED); the canonical form is the model's (log 19). -/
def Obligations.StepKeepsTheInvariant : Prop :=
  ∀ s t : State, s.Inv → step s = .next t → t.Inv

/-- Every move of the driver keeps the invariant, FRAMEs of any length and LOADs of any bytes anywhere among them. What a fault
and a halted core do is D15 to D18 (log 13; log 12 for the next state), a LOAD at any address and time D23 (log 16). -/
def Obligations.EveryMoveKeepsTheInvariant : Prop :=
  ∀ (m : Move) (s t : State), s.Inv → m.run s = .next t → t.Inv

/-! ## Reset, load, keys -/

/-- 10_state.md section 15 (decisions D6, D7, D8, D16, log 5; the font bytes of section 15 are D4, log 3): what RESET
leaves. -/
def Obligations.ResetValues : Prop :=
  let s := State.reset
  (∀ r, s.getV r = 0) ∧ s.pc = 0x0200 ∧ s.i = 0 ∧ s.sp.val = 0 ∧ s.dt = 0 ∧ s.st = 0 ∧
  (∀ k : Fin 16, s.keys[k] = false) ∧ (∀ Y X, s.fb.pixel Y X = false) ∧ s.displayChanged = false ∧
  s.faultStatus = (false, 0, 0, 0, 0, 0) ∧
  (∀ a, (a < 0x50 ∨ 0x9F < a) → s.mem.byteAt a = 0) ∧
  (∀ k, k < 80 → Config.fontRom[k]? = some (s.mem.byteAt (0x50 + k))) ∧
  s.mem.bytesFrom 0x50 5 = [0xF0, 0x90, 0x90, 0x90, 0xF0] ∧ s.mem.bytesFrom 0x9B 5 = [0xF0, 0x80, 0xF0, 0x80, 0x80]

/-- 70_reset_and_hazards.md section 1 and 60_exceptions.md sections 1, 5 (LOAD, SETKEYS, the launch state; LoadRange is D23,
log 16): what the driver's moves do on a running core. -/
def Obligations.LoadAndSetKeys : Prop :=
  ∀ (s : State) (address : Nat) (bytes : List Byte) (k : Keys), s.halted = false →
    setKeysMove k s = { s with keys := k } ∧
    (address + bytes.length ≤ 4096 → ∃ t, loadMove address bytes s = t ∧
      (∀ (j : Nat) (h : j < bytes.length), t.mem.byteAt (address + j) = bytes[j]) ∧
      (∀ a, (a < address ∨ address + bytes.length ≤ a) → t.mem.byteAt a = s.mem.byteAt a) ∧
      t = { s with mem := t.mem }) ∧
    (4096 < address + bytes.length → loadMove address bytes s = { s with halted := true, fault :=
      { kind := .loadRange, pc := s.pc, opcode := 0, addr := 0, sp := s.sp } })

/-! ## Encoding -/

/-- 30_encoding.md section 2 (patterns D1, log 1): decoding the word of any instruction gives it back, from the word and
from its bytes in memory. -/
def Obligations.DecodeOfEncode : Prop :=
  ∀ i : Instr, decode (encode i) = .insn i ∧ decodeBytes (wordBytes (encode i)) = .insn i

/-- 30_encoding.md section 2 (patterns D1, log 1): a legal word is the encoding of the `Instr` it decodes to, so no two words
decode to the same `Instr`. For `8xy6` and `8xyE` this rests on the model's constructors `shr` and `shl` keeping the field `y`
(log 15): 30_encoding.md R69 (section 3, decision D12) calls the words with the 16 values of `y` ONE instruction with one
effect, and the model gives them 16 values of `Instr` with one meaning. -/
def Obligations.EncodeOfDecode : Prop := ∀ (w : Word) (i : Instr), decode w = .insn i → encode i = w

/-- 30_encoding.md section 2, the opcode map (D1, log 1): a word selects a row by mask and match exactly when the two-level
decoder gives it an instruction of that row's mnemonic and format. -/
def Obligations.OpcodeMapAgreesWithDecoder : Prop :=
  ∀ r ∈ opcodeMap, ∀ w : Word,
    r.selects w ↔ ∃ i, decode w = .insn i ∧ i.mnemonic = r.mnemonic ∧ i.format = r.format

/-- 30_encoding.md section 3, the six classes of illegal words (D1, D3; log 1, log 2): a word is a decode error exactly when
it is in one of them. -/
def Obligations.IllegalWordsAreTheSixClasses : Prop :=
  ∀ w : Word,
    (decode w = .illegal .sysSpace ↔ fieldOp w = 0 ∧ fieldNnn w ≠ 0x0E0 ∧ fieldNnn w ≠ 0x0EE) ∧
    (decode w = .illegal .seLowNibble ↔ fieldOp w = 5 ∧ fieldN w ≠ 0) ∧
    (decode w = .illegal .sneLowNibble ↔ fieldOp w = 9 ∧ fieldN w ≠ 0) ∧
    (decode w = .illegal .aluLowNibble ↔ fieldOp w = 8 ∧ fieldN w ∈ [8, 9, 0xA, 0xB, 0xC, 0xD, 0xF]) ∧
    (decode w = .illegal .keyLowByte ↔ fieldOp w = 0xE ∧ fieldKk w ∉ [0x9E, 0xA1]) ∧
    (decode w = .illegal .miscLowByte ↔
      fieldOp w = 0xF ∧ fieldKk w ∉ [0x07, 0x0A, 0x15, 0x18, 0x1E, 0x29, 0x33, 0x55, 0x65]) ∧
    decode w ≠ .illegal .truncated

/-- One word of each family, written out from 30_encoding.md R65 (D1, log 1), and the illegal word the source prints. -/
def Obligations.SampleWordsDecode : Prop :=
  decode 0b0000000011101110 = .insn .ret ∧ decode 0b0010001100000000 = .insn (.call 0x300) ∧
  decode 0b1000000100100111 = .insn (.subnReg 1 2) ∧ decode 0b1111001101010101 = .insn (.storeRegs 3) ∧
  decode 0b1101101011000101 = .insn (.drw 0xA 0xC 5) ∧ decode 0b1110010110011110 = .insn (.skp 5) ∧
  decode 0b0101000000000001 = .illegal .seLowNibble
end

