-- ==== Sys2Proof/Laws/Encoding.lean ====
section
/-! SUPPORT. The fields of an encoded word (30_encoding.md R61, R62), and a word as the concatenation of its fields. -/

namespace Sys2Proof

/-! ## The fields of a word put together from fields -/

@[simp] theorem fieldOp_encodeA (op : Nibble) (nnn : Addr) : fieldOp (encodeA op nnn) = op :=
  BitVec.extractLsb'_append_eq_left

@[simp] theorem fieldNnn_encodeA (op : Nibble) (nnn : Addr) : fieldNnn (encodeA op nnn) = nnn :=
  BitVec.extractLsb'_append_eq_right

@[simp] theorem fieldOp_encodeXK (op x : Nibble) (kk : Byte) : fieldOp (encodeXK op x kk) = op :=
  (BitVec.extractLsb'_append_eq_of_le (xhi := op ++ x) (xlo := kk) (by decide)).trans
    BitVec.extractLsb'_append_eq_left

@[simp] theorem fieldX_encodeXK (op x : Nibble) (kk : Byte) : fieldX (encodeXK op x kk) = x :=
  (BitVec.extractLsb'_append_eq_of_le (xhi := op ++ x) (xlo := kk) (by decide)).trans
    BitVec.extractLsb'_append_eq_right

@[simp] theorem fieldKk_encodeXK (op x : Nibble) (kk : Byte) : fieldKk (encodeXK op x kk) = kk :=
  BitVec.extractLsb'_append_eq_right (a := op ++ x)

@[simp] theorem fieldOp_encodeXYN (op x y n : Nibble) : fieldOp (encodeXYN op x y n) = op :=
  (BitVec.extractLsb'_append_eq_of_le (xhi := op ++ x ++ y) (xlo := n) (by decide)).trans
    ((BitVec.extractLsb'_append_eq_of_le (xhi := op ++ x) (xlo := y) (by decide)).trans
      BitVec.extractLsb'_append_eq_left)

@[simp] theorem fieldX_encodeXYN (op x y n : Nibble) : fieldX (encodeXYN op x y n) = x :=
  (BitVec.extractLsb'_append_eq_of_le (xhi := op ++ x ++ y) (xlo := n) (by decide)).trans
    ((BitVec.extractLsb'_append_eq_of_le (xhi := op ++ x) (xlo := y) (by decide)).trans
      BitVec.extractLsb'_append_eq_right)

@[simp] theorem fieldY_encodeXYN (op x y n : Nibble) : fieldY (encodeXYN op x y n) = y :=
  (BitVec.extractLsb'_append_eq_of_le (xhi := op ++ x ++ y) (xlo := n) (by decide)).trans
    (BitVec.extractLsb'_append_eq_right (a := op ++ x))

@[simp] theorem fieldN_encodeXYN (op x y n : Nibble) : fieldN (encodeXYN op x y n) = n :=
  BitVec.extractLsb'_append_eq_right (a := op ++ x ++ y)

/-! ## A word is the concatenation of its fields (R61: "`kk = y ++ n`, `nnn = x ++ y ++ n`") -/

theorem encodeA_fields (w : Word) : encodeA (fieldOp w) (fieldNnn w) = w := by
  refine (BitVec.extractLsb'_append_extractLsb'_eq_extractLsb' (x := w) (start₁ := 0) (len₁ := 12) (start₂ := 12)
    (len₂ := 4) rfl).trans ?_
  exact BitVec.extractLsb'_eq_self

theorem fieldNnn_eq (w : Word) : fieldNnn w = fieldX w ++ fieldKk w :=
  (BitVec.extractLsb'_append_extractLsb'_eq_extractLsb' (x := w) (start₁ := 0) (len₁ := 8) (start₂ := 8)
    (len₂ := 4) rfl).symm

theorem fieldKk_eq (w : Word) : fieldKk w = fieldY w ++ fieldN w :=
  (BitVec.extractLsb'_append_extractLsb'_eq_extractLsb' (x := w) (start₁ := 0) (len₁ := 4) (start₂ := 4)
    (len₂ := 4) rfl).symm

theorem encodeXK_fields (w : Word) : encodeXK (fieldOp w) (fieldX w) (fieldKk w) = w := by
  apply BitVec.eq_of_toNat_eq
  have h := congrArg BitVec.toNat (encodeA_fields w)
  rw [fieldNnn_eq] at h
  rw [← h]
  unfold encodeXK encodeA
  exact congrArg BitVec.toNat (BitVec.append_assoc (x₁ := fieldOp w) (x₂ := fieldX w) (x₃ := fieldKk w))

theorem encodeXYN_fields (w : Word) : encodeXYN (fieldOp w) (fieldX w) (fieldY w) (fieldN w) = w := by
  have h := encodeXK_fields w
  rw [fieldKk_eq] at h
  refine Eq.trans ?_ h
  unfold encodeXYN encodeXK
  exact BitVec.append_assoc (x₁ := fieldOp w ++ fieldX w) (x₂ := fieldY w) (x₃ := fieldN w)

/-! ## Masks (the mask column of R65) -/

theorem and_append {a b : Nat} (x m : BitVec a) (y k : BitVec b) : (x ++ y) &&& (m ++ k) = (x &&& m) ++ (y &&& k) := by
  apply BitVec.eq_of_getLsbD_eq
  intro i hi
  simp only [BitVec.getLsbD_and, BitVec.getLsbD_append]
  split <;> rfl

/-- Mask 0xF000 keeps the top nibble. -/
theorem and_maskA (w : Word) : w &&& 0xF000 = encodeA (fieldOp w) 0 := by
  conv_lhs => rw [← encodeA_fields w]
  refine (and_append (fieldOp w) 0xF#4 (fieldNnn w) 0#12).trans ?_
  rw [show (0xF#4) = BitVec.allOnes 4 from rfl, BitVec.and_allOnes, BitVec.and_zero]
  rfl

/-- Mask 0xF0FF keeps the top nibble and the low byte. -/
theorem and_maskX (w : Word) : w &&& 0xF0FF = encodeXK (fieldOp w) 0 (fieldKk w) := by
  conv_lhs => rw [← encodeXK_fields w]
  refine (and_append (fieldOp w ++ fieldX w) (0xF#4 ++ 0#4) (fieldKk w) 0xFF#8).trans ?_
  rw [and_append, show (0xF#4) = BitVec.allOnes 4 from rfl, show (0xFF#8) = BitVec.allOnes 8 from rfl,
    BitVec.and_allOnes, BitVec.and_allOnes, BitVec.and_zero]
  rfl

/-- Mask 0xF00F keeps the top and the low nibble. -/
theorem and_maskXY (w : Word) : w &&& 0xF00F = encodeXYN (fieldOp w) 0 0 (fieldN w) := by
  conv_lhs => rw [← encodeXYN_fields w]
  refine (and_append (fieldOp w ++ fieldX w ++ fieldY w) (0xF#4 ++ 0#4 ++ 0#4) (fieldN w) 0xF#4).trans ?_
  rw [and_append, and_append, show (0xF#4) = BitVec.allOnes 4 from rfl, BitVec.and_allOnes, BitVec.and_allOnes,
    BitVec.and_zero, BitVec.and_zero]
  rfl

/-- Mask 0xFFFF keeps the whole word. -/
theorem and_maskZ (w : Word) : w &&& 0xFFFF = w := BitVec.and_allOnes

/-! ## Two put-together words are equal exactly when their fields are -/

theorem encodeA_inj (op op' : Nibble) (nnn nnn' : Addr) :
    encodeA op nnn = encodeA op' nnn' ↔ op = op' ∧ nnn = nnn' :=
  ⟨fun h => ⟨by simpa using congrArg fieldOp h, by simpa using congrArg fieldNnn h⟩, fun ⟨h1, h2⟩ => by rw [h1, h2]⟩

theorem encodeXK_inj (op op' x x' : Nibble) (kk kk' : Byte) :
    encodeXK op x kk = encodeXK op' x' kk' ↔ op = op' ∧ x = x' ∧ kk = kk' :=
  ⟨fun h => ⟨by simpa using congrArg fieldOp h, by simpa using congrArg fieldX h, by simpa using congrArg fieldKk h⟩,
    fun ⟨h1, h2, h3⟩ => by rw [h1, h2, h3]⟩

theorem encodeXYN_inj (op op' x x' y y' n n' : Nibble) :
    encodeXYN op x y n = encodeXYN op' x' y' n' ↔ op = op' ∧ x = x' ∧ y = y' ∧ n = n' :=
  ⟨fun h => ⟨by simpa using congrArg fieldOp h, by simpa using congrArg fieldX h, by simpa using congrArg fieldY h,
      by simpa using congrArg fieldN h⟩,
    fun ⟨h1, h2, h3, h4⟩ => by rw [h1, h2, h3, h4]⟩

/-! ## Bytes -/

/-- The bytes of a word put together again are the word. -/
theorem decodeBytes_wordBytes (w : Word) : decodeBytes (wordBytes w) = decode w := by
  show decode (w.extractLsb' 8 8 ++ w.extractLsb' 0 8) = decode w
  congr 1
  exact (BitVec.extractLsb'_append_extractLsb'_eq_extractLsb' (x := w) (start₁ := 0) (len₁ := 8) (start₂ := 8)
    (len₂ := 8) rfl).trans BitVec.extractLsb'_eq_self

/-- A list of fewer than two bytes holds no instruction word (R60). -/
theorem decodeBytes_short (bytes : List Byte) (h : bytes.length < 2) : decodeBytes bytes = .illegal .truncated := by
  match bytes, h with
  | [], _ => rfl
  | [_], _ => rfl

end Sys2Proof
end

