-- ==== Sys2Proof/Laws/Memory.lean ====
section
/-! SUPPORT. The laws of memory: read after write, the canonical form, and what the address decoder answers. -/

namespace Sys2Proof.Machine

/-! ## One byte -/

@[simp] theorem Memory.byteAt_nil (a : Nat) : Memory.byteAt [] a = resetByte a := rfl

/-- Erasing a cell makes its address read as after reset and leaves the others. -/
theorem Memory.byteAt_erase (m : Memory) (a k : Nat) :
    (Memory.erase a m).byteAt k = if k = a then resetByte a else m.byteAt k := by
  induction m with
  | nil => by_cases h : k = a <;> simp [Memory.erase, h]
  | cons c m ih =>
    by_cases hc : c.1 = a
    · rw [Memory.erase, if_pos hc, ih]
      by_cases h : k = a
      · simp [h]
      · have hk : ¬ a = k := fun e => h e.symm
        simp [h, hk, Memory.byteAt, hc]
    · rw [Memory.erase, if_neg hc, Memory.byteAt, ih, Memory.byteAt]
      by_cases h : k = a
      · subst h; simp [hc]
      · simp [h]

/-- Inserting a cell writes its address and leaves the others. -/
theorem Memory.byteAt_insert (m : Memory) (a k : Nat) (b : Byte) :
    (Memory.insert a b m).byteAt k = if k = a then b else m.byteAt k := by
  induction m with
  | nil =>
    by_cases h : k = a
    · simp [Memory.insert, Memory.byteAt, h]
    · have : ¬ a = k := fun e => h e.symm
      simp [Memory.insert, Memory.byteAt, h, this]
  | cons c m ih =>
    rw [Memory.insert]
    by_cases h : k = a
    · subst h
      split
      · simp [Memory.byteAt]
      · split
        · simp [Memory.byteAt]
        · next h2 =>
          have : ¬ c.1 = k := fun e => h2 e.symm
          simp [Memory.byteAt, this, ih]
    · have ha : ¬ a = k := fun e => h e.symm
      split
      · simp [Memory.byteAt, ha]
      · split
        · next h2 => simp [Memory.byteAt, ha, ← h2]
        · simp [Memory.byteAt, h, ih]

/-- Read after write of one byte (20_memory.md R50): the address written reads as the byte written, every other address as
before. -/
theorem Memory.byteAt_setByte (m : Memory) (a k : Nat) (b : Byte) :
    (m.setByte a b).byteAt k = if k = a then b else m.byteAt k := by
  unfold Memory.setByte
  split
  · next h => rw [Memory.byteAt_erase, h]
  · exact Memory.byteAt_insert m a k b

/-! ## The canonical form -/

/-- Reset memory is in canonical form. -/
theorem Memory.wf_nil : Memory.wf [] := by decide

theorem Memory.mem_of_mem_erase {m : Memory} {a : Nat} {c : Host.Cell} (h : c ∈ Memory.erase a m) : c ∈ m := by
  induction m with
  | nil => exact h
  | cons d m ih =>
    rw [Memory.erase] at h
    split at h
    · exact List.mem_cons_of_mem _ (ih h)
    · rcases List.mem_cons.1 h with rfl | h
      · exact List.mem_cons_self
      · exact List.mem_cons_of_mem _ (ih h)

theorem Memory.pairwise_erase {m : Memory} (a : Nat) (h : m.Pairwise (fun c d => c.1 < d.1)) :
    (Memory.erase a m).Pairwise (fun c d => c.1 < d.1) := by
  induction m with
  | nil => exact h
  | cons c m ih =>
    obtain ⟨h1, h2⟩ := List.pairwise_cons.1 h
    rw [Memory.erase]
    split
    · exact ih h2
    · exact List.pairwise_cons.2 ⟨fun d hd => h1 d (Memory.mem_of_mem_erase hd), ih h2⟩

theorem Memory.mem_insert {m : Memory} {a : Nat} {b : Byte} {c : Host.Cell} (h : c ∈ Memory.insert a b m) :
    c = (a, b) ∨ c ∈ m := by
  induction m with
  | nil => simpa [Memory.insert] using h
  | cons d m ih =>
    rw [Memory.insert] at h
    split at h
    · simpa using h
    · split at h
      · rcases List.mem_cons.1 h with rfl | h
        · exact .inl rfl
        · exact .inr (List.mem_cons_of_mem _ h)
      · rcases List.mem_cons.1 h with rfl | h
        · exact .inr List.mem_cons_self
        · exact (ih h).imp_right (List.mem_cons_of_mem _)

theorem Memory.pairwise_insert {m : Memory} (a : Nat) (b : Byte) (h : m.Pairwise (fun c d => c.1 < d.1)) :
    (Memory.insert a b m).Pairwise (fun c d => c.1 < d.1) := by
  induction m with
  | nil => simp [Memory.insert]
  | cons c m ih =>
    obtain ⟨h1, h2⟩ := List.pairwise_cons.1 h
    rw [Memory.insert]
    split
    · next hlt =>
      refine List.pairwise_cons.2 ⟨fun d hd => ?_, h⟩
      rcases List.mem_cons.1 hd with rfl | hd
      · exact hlt
      · exact Nat.lt_trans hlt (h1 d hd)
    · split
      · next heq => exact List.pairwise_cons.2 ⟨fun d hd => by simpa [heq] using h1 d hd, h2⟩
      · refine List.pairwise_cons.2 ⟨fun d hd => ?_, ih h2⟩
        rcases Memory.mem_insert hd with rfl | hd
        · show c.1 < a
          omega
        · exact h1 d hd

/-- Writing one byte inside memory keeps the canonical form. -/
theorem Memory.wf_setByte {m : Memory} (h : m.wf) {a : Nat} (ha : a < Config.memSize) (b : Byte) : (m.setByte a b).wf := by
  unfold Memory.setByte
  split
  · exact ⟨Memory.pairwise_erase a h.1, fun c hc => h.2 c (Memory.mem_of_mem_erase hc)⟩
  · next hb =>
    refine ⟨Memory.pairwise_insert a b h.1, fun c hc => ?_⟩
    rcases Memory.mem_insert hc with rfl | hc
    · exact ⟨ha, hb⟩
    · exact h.2 c hc

/-- Writing consecutive bytes inside memory keeps the canonical form. -/
theorem Memory.wf_setBytes (bytes : List Byte) : ∀ {m : Memory} {a : Nat}, m.wf → a + bytes.length ≤ Config.memSize →
    (m.setBytes a bytes).wf := by
  induction bytes with
  | nil => intro m a h _; exact h
  | cons b bs ih =>
    intro m a h hr
    rw [List.length_cons] at hr
    exact ih (Memory.wf_setByte h (by omega) b) (by omega)

/-! ## Consecutive bytes -/

@[simp] theorem Memory.length_bytesFrom (m : Memory) (n : Nat) : ∀ a, (m.bytesFrom a n).length = n := by
  induction n with
  | zero => intro a; rfl
  | succ n ih => intro a; simp [Memory.bytesFrom, ih]

/-- Byte `k` of a read is the byte at address `a + k`. -/
theorem Memory.getElem?_bytesFrom (m : Memory) (n : Nat) : ∀ (a k : Nat), k < n →
    (m.bytesFrom a n)[k]? = some (m.byteAt (a + k)) := by
  induction n with
  | zero => intro a k h; omega
  | succ n ih =>
    intro a k h
    cases k with
    | zero => simp [Memory.bytesFrom]
    | succ k =>
      have := ih (a + 1) k (by omega)
      simp only [Memory.bytesFrom, List.getElem?_cons_succ, this]
      congr 2; omega

/-- What every address reads as after a write of consecutive bytes: byte `k` at `a + k`, every other address as before. -/
theorem Memory.byteAt_setBytes (bytes : List Byte) : ∀ (m : Memory) (a k : Nat),
    (m.setBytes a bytes).byteAt k = if a ≤ k then (bytes[k - a]?).getD (m.byteAt k) else m.byteAt k := by
  induction bytes with
  | nil => intro m a k; simp [Memory.setBytes]
  | cons b bs ih =>
    intro m a k
    rw [Memory.setBytes, ih, Memory.byteAt_setByte]
    by_cases h1 : a + 1 ≤ k
    · have h2 : a ≤ k := by omega
      have h3 : ¬ k = a := by omega
      have h4 : k - a = (k - (a + 1)) + 1 := by omega
      simp [h1, h2, h3, h4]
    · by_cases h2 : k = a
      · subst h2; simp
      · have h3 : ¬ a ≤ k := by omega
        simp [h1, h2, h3]

/-- An address outside the bytes written reads as before. -/
theorem Memory.byteAt_setBytes_outside (m : Memory) (a : Nat) (bytes : List Byte) {k : Nat}
    (h : k < a ∨ a + bytes.length ≤ k) : (m.setBytes a bytes).byteAt k = m.byteAt k := by
  rw [Memory.byteAt_setBytes]
  split
  · rw [List.getElem?_eq_none (by omega)]; rfl
  · rfl

/-- Byte `k` of the bytes written reads back at `a + k`. -/
theorem Memory.byteAt_setBytes_inside (m : Memory) (a : Nat) (bytes : List Byte) {k : Nat} (h : k < bytes.length) :
    (m.setBytes a bytes).byteAt (a + k) = bytes[k] := by
  rw [Memory.byteAt_setBytes, if_pos (by omega), Nat.add_sub_cancel_left, List.getElem?_eq_getElem h]
  rfl

/-! ## The address decoder (20_memory.md R41) -/

theorem inRange_iff (a n : Nat) : inRange a n = true ↔ n = 0 ∨ a + n ≤ 4096 := by
  rw [inRange, Bool.or_eq_true, beq_iff_eq, decide_eq_true_iff]
  rfl

/-- A read answers the bytes exactly when the access is in range. -/
theorem Memory.read_eq_some_iff (m : Memory) (a n : Nat) (bs : List Byte) :
    m.read a n = some bs ↔ (n = 0 ∨ a + n ≤ 4096) ∧ bs = m.bytesFrom a n := by
  rw [← inRange_iff, Memory.read]
  cases inRange a n <;> simp [eq_comm]

theorem Memory.read_eq_none_iff (m : Memory) (a n : Nat) : m.read a n = none ↔ n ≠ 0 ∧ 4096 < a + n := by
  have h : (n ≠ 0 ∧ 4096 < a + n) ↔ ¬ (n = 0 ∨ a + n ≤ 4096) := by omega
  rw [h, ← inRange_iff, Memory.read]
  cases inRange a n <;> simp

/-- A write answers a memory exactly when the access is in range. -/
theorem Memory.write_eq_some_iff (m : Memory) (a : Nat) (bytes : List Byte) (m' : Memory) :
    m.write a bytes = some m' ↔ (bytes.length = 0 ∨ a + bytes.length ≤ 4096) ∧ m' = m.setBytes a bytes := by
  rw [← inRange_iff, Memory.write]
  cases inRange a bytes.length <;> simp [eq_comm]

theorem Memory.write_eq_none_iff (m : Memory) (a : Nat) (bytes : List Byte) :
    m.write a bytes = none ↔ bytes.length ≠ 0 ∧ 4096 < a + bytes.length := by
  have h : (bytes.length ≠ 0 ∧ 4096 < a + bytes.length) ↔ ¬ (bytes.length = 0 ∨ a + bytes.length ≤ 4096) := by omega
  rw [h, ← inRange_iff, Memory.write]
  cases inRange a bytes.length <;> simp

/-- Every write keeps the canonical form. -/
theorem Memory.wf_write {m m' : Memory} (h : m.wf) {a : Nat} {bytes : List Byte} (hw : m.write a bytes = some m') :
    m'.wf := by
  obtain ⟨hr, rfl⟩ := (Memory.write_eq_some_iff m a bytes m').1 hw
  rcases hr with h0 | hr
  · rw [List.length_eq_zero_iff.1 h0]; exact h
  · exact Memory.wf_setBytes bytes h hr

end Sys2Proof.Machine
end

