-- ==== Sys2Proof/Laws/State.lean ====
section
/-! SUPPORT. What each update of State leaves in each field: one lemma per field per update, true by unfolding. -/

namespace Sys2Proof.Machine

/-! ### `setV` -/

@[simp] theorem State.setV_v (s : State) (r : Nibble) (b : Byte) : (s.setV r b).v = s.v.set r.toNat b r.isLt := rfl
@[simp] theorem State.setV_pc (s : State) (r : Nibble) (b : Byte) : (s.setV r b).pc = s.pc := rfl
@[simp] theorem State.setV_i (s : State) (r : Nibble) (b : Byte) : (s.setV r b).i = s.i := rfl
@[simp] theorem State.setV_stack (s : State) (r : Nibble) (b : Byte) : (s.setV r b).stack = s.stack := rfl
@[simp] theorem State.setV_sp (s : State) (r : Nibble) (b : Byte) : (s.setV r b).sp = s.sp := rfl
@[simp] theorem State.setV_dt (s : State) (r : Nibble) (b : Byte) : (s.setV r b).dt = s.dt := rfl
@[simp] theorem State.setV_st (s : State) (r : Nibble) (b : Byte) : (s.setV r b).st = s.st := rfl
@[simp] theorem State.setV_mem (s : State) (r : Nibble) (b : Byte) : (s.setV r b).mem = s.mem := rfl
@[simp] theorem State.setV_keys (s : State) (r : Nibble) (b : Byte) : (s.setV r b).keys = s.keys := rfl
@[simp] theorem State.setV_fb (s : State) (r : Nibble) (b : Byte) : (s.setV r b).fb = s.fb := rfl
@[simp] theorem State.setV_displayChanged (s : State) (r : Nibble) (b : Byte) : (s.setV r b).displayChanged = s.displayChanged := rfl
@[simp] theorem State.setV_halted (s : State) (r : Nibble) (b : Byte) : (s.setV r b).halted = s.halted := rfl
@[simp] theorem State.setV_fault (s : State) (r : Nibble) (b : Byte) : (s.setV r b).fault = s.fault := rfl
@[simp] theorem State.setV_draws (s : State) (r : Nibble) (b : Byte) : (s.setV r b).draws = s.draws := rfl

/-! ### `setPc` -/

@[simp] theorem State.setPc_v (s : State) (a : Word) : (s.setPc a).v = s.v := rfl
@[simp] theorem State.setPc_pc (s : State) (a : Word) : (s.setPc a).pc = a := rfl
@[simp] theorem State.setPc_i (s : State) (a : Word) : (s.setPc a).i = s.i := rfl
@[simp] theorem State.setPc_stack (s : State) (a : Word) : (s.setPc a).stack = s.stack := rfl
@[simp] theorem State.setPc_sp (s : State) (a : Word) : (s.setPc a).sp = s.sp := rfl
@[simp] theorem State.setPc_dt (s : State) (a : Word) : (s.setPc a).dt = s.dt := rfl
@[simp] theorem State.setPc_st (s : State) (a : Word) : (s.setPc a).st = s.st := rfl
@[simp] theorem State.setPc_mem (s : State) (a : Word) : (s.setPc a).mem = s.mem := rfl
@[simp] theorem State.setPc_keys (s : State) (a : Word) : (s.setPc a).keys = s.keys := rfl
@[simp] theorem State.setPc_fb (s : State) (a : Word) : (s.setPc a).fb = s.fb := rfl
@[simp] theorem State.setPc_displayChanged (s : State) (a : Word) : (s.setPc a).displayChanged = s.displayChanged := rfl
@[simp] theorem State.setPc_halted (s : State) (a : Word) : (s.setPc a).halted = s.halted := rfl
@[simp] theorem State.setPc_fault (s : State) (a : Word) : (s.setPc a).fault = s.fault := rfl
@[simp] theorem State.setPc_draws (s : State) (a : Word) : (s.setPc a).draws = s.draws := rfl

/-! ### `setI` -/

@[simp] theorem State.setI_v (s : State) (a : Word) : (s.setI a).v = s.v := rfl
@[simp] theorem State.setI_pc (s : State) (a : Word) : (s.setI a).pc = s.pc := rfl
@[simp] theorem State.setI_i (s : State) (a : Word) : (s.setI a).i = a := rfl
@[simp] theorem State.setI_stack (s : State) (a : Word) : (s.setI a).stack = s.stack := rfl
@[simp] theorem State.setI_sp (s : State) (a : Word) : (s.setI a).sp = s.sp := rfl
@[simp] theorem State.setI_dt (s : State) (a : Word) : (s.setI a).dt = s.dt := rfl
@[simp] theorem State.setI_st (s : State) (a : Word) : (s.setI a).st = s.st := rfl
@[simp] theorem State.setI_mem (s : State) (a : Word) : (s.setI a).mem = s.mem := rfl
@[simp] theorem State.setI_keys (s : State) (a : Word) : (s.setI a).keys = s.keys := rfl
@[simp] theorem State.setI_fb (s : State) (a : Word) : (s.setI a).fb = s.fb := rfl
@[simp] theorem State.setI_displayChanged (s : State) (a : Word) : (s.setI a).displayChanged = s.displayChanged := rfl
@[simp] theorem State.setI_halted (s : State) (a : Word) : (s.setI a).halted = s.halted := rfl
@[simp] theorem State.setI_fault (s : State) (a : Word) : (s.setI a).fault = s.fault := rfl
@[simp] theorem State.setI_draws (s : State) (a : Word) : (s.setI a).draws = s.draws := rfl

/-! ### `setDt` -/

@[simp] theorem State.setDt_v (s : State) (b : Byte) : (s.setDt b).v = s.v := rfl
@[simp] theorem State.setDt_pc (s : State) (b : Byte) : (s.setDt b).pc = s.pc := rfl
@[simp] theorem State.setDt_i (s : State) (b : Byte) : (s.setDt b).i = s.i := rfl
@[simp] theorem State.setDt_stack (s : State) (b : Byte) : (s.setDt b).stack = s.stack := rfl
@[simp] theorem State.setDt_sp (s : State) (b : Byte) : (s.setDt b).sp = s.sp := rfl
@[simp] theorem State.setDt_dt (s : State) (b : Byte) : (s.setDt b).dt = b := rfl
@[simp] theorem State.setDt_st (s : State) (b : Byte) : (s.setDt b).st = s.st := rfl
@[simp] theorem State.setDt_mem (s : State) (b : Byte) : (s.setDt b).mem = s.mem := rfl
@[simp] theorem State.setDt_keys (s : State) (b : Byte) : (s.setDt b).keys = s.keys := rfl
@[simp] theorem State.setDt_fb (s : State) (b : Byte) : (s.setDt b).fb = s.fb := rfl
@[simp] theorem State.setDt_displayChanged (s : State) (b : Byte) : (s.setDt b).displayChanged = s.displayChanged := rfl
@[simp] theorem State.setDt_halted (s : State) (b : Byte) : (s.setDt b).halted = s.halted := rfl
@[simp] theorem State.setDt_fault (s : State) (b : Byte) : (s.setDt b).fault = s.fault := rfl
@[simp] theorem State.setDt_draws (s : State) (b : Byte) : (s.setDt b).draws = s.draws := rfl

/-! ### `setSt` -/

@[simp] theorem State.setSt_v (s : State) (b : Byte) : (s.setSt b).v = s.v := rfl
@[simp] theorem State.setSt_pc (s : State) (b : Byte) : (s.setSt b).pc = s.pc := rfl
@[simp] theorem State.setSt_i (s : State) (b : Byte) : (s.setSt b).i = s.i := rfl
@[simp] theorem State.setSt_stack (s : State) (b : Byte) : (s.setSt b).stack = s.stack := rfl
@[simp] theorem State.setSt_sp (s : State) (b : Byte) : (s.setSt b).sp = s.sp := rfl
@[simp] theorem State.setSt_dt (s : State) (b : Byte) : (s.setSt b).dt = s.dt := rfl
@[simp] theorem State.setSt_st (s : State) (b : Byte) : (s.setSt b).st = b := rfl
@[simp] theorem State.setSt_mem (s : State) (b : Byte) : (s.setSt b).mem = s.mem := rfl
@[simp] theorem State.setSt_keys (s : State) (b : Byte) : (s.setSt b).keys = s.keys := rfl
@[simp] theorem State.setSt_fb (s : State) (b : Byte) : (s.setSt b).fb = s.fb := rfl
@[simp] theorem State.setSt_displayChanged (s : State) (b : Byte) : (s.setSt b).displayChanged = s.displayChanged := rfl
@[simp] theorem State.setSt_halted (s : State) (b : Byte) : (s.setSt b).halted = s.halted := rfl
@[simp] theorem State.setSt_fault (s : State) (b : Byte) : (s.setSt b).fault = s.fault := rfl
@[simp] theorem State.setSt_draws (s : State) (b : Byte) : (s.setSt b).draws = s.draws := rfl

/-! ### `setMem` -/

@[simp] theorem State.setMem_v (s : State) (m : Memory) : (s.setMem m).v = s.v := rfl
@[simp] theorem State.setMem_pc (s : State) (m : Memory) : (s.setMem m).pc = s.pc := rfl
@[simp] theorem State.setMem_i (s : State) (m : Memory) : (s.setMem m).i = s.i := rfl
@[simp] theorem State.setMem_stack (s : State) (m : Memory) : (s.setMem m).stack = s.stack := rfl
@[simp] theorem State.setMem_sp (s : State) (m : Memory) : (s.setMem m).sp = s.sp := rfl
@[simp] theorem State.setMem_dt (s : State) (m : Memory) : (s.setMem m).dt = s.dt := rfl
@[simp] theorem State.setMem_st (s : State) (m : Memory) : (s.setMem m).st = s.st := rfl
@[simp] theorem State.setMem_mem (s : State) (m : Memory) : (s.setMem m).mem = m := rfl
@[simp] theorem State.setMem_keys (s : State) (m : Memory) : (s.setMem m).keys = s.keys := rfl
@[simp] theorem State.setMem_fb (s : State) (m : Memory) : (s.setMem m).fb = s.fb := rfl
@[simp] theorem State.setMem_displayChanged (s : State) (m : Memory) : (s.setMem m).displayChanged = s.displayChanged := rfl
@[simp] theorem State.setMem_halted (s : State) (m : Memory) : (s.setMem m).halted = s.halted := rfl
@[simp] theorem State.setMem_fault (s : State) (m : Memory) : (s.setMem m).fault = s.fault := rfl
@[simp] theorem State.setMem_draws (s : State) (m : Memory) : (s.setMem m).draws = s.draws := rfl

/-! ### `setRegs` -/

@[simp] theorem State.setRegs_v (s : State) (v : Regs) : (s.setRegs v).v = v := rfl
@[simp] theorem State.setRegs_pc (s : State) (v : Regs) : (s.setRegs v).pc = s.pc := rfl
@[simp] theorem State.setRegs_i (s : State) (v : Regs) : (s.setRegs v).i = s.i := rfl
@[simp] theorem State.setRegs_stack (s : State) (v : Regs) : (s.setRegs v).stack = s.stack := rfl
@[simp] theorem State.setRegs_sp (s : State) (v : Regs) : (s.setRegs v).sp = s.sp := rfl
@[simp] theorem State.setRegs_dt (s : State) (v : Regs) : (s.setRegs v).dt = s.dt := rfl
@[simp] theorem State.setRegs_st (s : State) (v : Regs) : (s.setRegs v).st = s.st := rfl
@[simp] theorem State.setRegs_mem (s : State) (v : Regs) : (s.setRegs v).mem = s.mem := rfl
@[simp] theorem State.setRegs_keys (s : State) (v : Regs) : (s.setRegs v).keys = s.keys := rfl
@[simp] theorem State.setRegs_fb (s : State) (v : Regs) : (s.setRegs v).fb = s.fb := rfl
@[simp] theorem State.setRegs_displayChanged (s : State) (v : Regs) : (s.setRegs v).displayChanged = s.displayChanged := rfl
@[simp] theorem State.setRegs_halted (s : State) (v : Regs) : (s.setRegs v).halted = s.halted := rfl
@[simp] theorem State.setRegs_fault (s : State) (v : Regs) : (s.setRegs v).fault = s.fault := rfl
@[simp] theorem State.setRegs_draws (s : State) (v : Regs) : (s.setRegs v).draws = s.draws := rfl

/-! ### `setKeys` -/

@[simp] theorem State.setKeys_v (s : State) (k : Keys) : (s.setKeys k).v = s.v := rfl
@[simp] theorem State.setKeys_pc (s : State) (k : Keys) : (s.setKeys k).pc = s.pc := rfl
@[simp] theorem State.setKeys_i (s : State) (k : Keys) : (s.setKeys k).i = s.i := rfl
@[simp] theorem State.setKeys_stack (s : State) (k : Keys) : (s.setKeys k).stack = s.stack := rfl
@[simp] theorem State.setKeys_sp (s : State) (k : Keys) : (s.setKeys k).sp = s.sp := rfl
@[simp] theorem State.setKeys_dt (s : State) (k : Keys) : (s.setKeys k).dt = s.dt := rfl
@[simp] theorem State.setKeys_st (s : State) (k : Keys) : (s.setKeys k).st = s.st := rfl
@[simp] theorem State.setKeys_mem (s : State) (k : Keys) : (s.setKeys k).mem = s.mem := rfl
@[simp] theorem State.setKeys_keys (s : State) (k : Keys) : (s.setKeys k).keys = k := rfl
@[simp] theorem State.setKeys_fb (s : State) (k : Keys) : (s.setKeys k).fb = s.fb := rfl
@[simp] theorem State.setKeys_displayChanged (s : State) (k : Keys) : (s.setKeys k).displayChanged = s.displayChanged := rfl
@[simp] theorem State.setKeys_halted (s : State) (k : Keys) : (s.setKeys k).halted = s.halted := rfl
@[simp] theorem State.setKeys_fault (s : State) (k : Keys) : (s.setKeys k).fault = s.fault := rfl
@[simp] theorem State.setKeys_draws (s : State) (k : Keys) : (s.setKeys k).draws = s.draws := rfl

/-! ### `setFb` -/

@[simp] theorem State.setFb_v (s : State) (fb : Framebuffer) : (s.setFb fb).v = s.v := rfl
@[simp] theorem State.setFb_pc (s : State) (fb : Framebuffer) : (s.setFb fb).pc = s.pc := rfl
@[simp] theorem State.setFb_i (s : State) (fb : Framebuffer) : (s.setFb fb).i = s.i := rfl
@[simp] theorem State.setFb_stack (s : State) (fb : Framebuffer) : (s.setFb fb).stack = s.stack := rfl
@[simp] theorem State.setFb_sp (s : State) (fb : Framebuffer) : (s.setFb fb).sp = s.sp := rfl
@[simp] theorem State.setFb_dt (s : State) (fb : Framebuffer) : (s.setFb fb).dt = s.dt := rfl
@[simp] theorem State.setFb_st (s : State) (fb : Framebuffer) : (s.setFb fb).st = s.st := rfl
@[simp] theorem State.setFb_mem (s : State) (fb : Framebuffer) : (s.setFb fb).mem = s.mem := rfl
@[simp] theorem State.setFb_keys (s : State) (fb : Framebuffer) : (s.setFb fb).keys = s.keys := rfl
@[simp] theorem State.setFb_fb (s : State) (fb : Framebuffer) : (s.setFb fb).fb = fb := rfl
@[simp] theorem State.setFb_displayChanged (s : State) (fb : Framebuffer) : (s.setFb fb).displayChanged = s.displayChanged := rfl
@[simp] theorem State.setFb_halted (s : State) (fb : Framebuffer) : (s.setFb fb).halted = s.halted := rfl
@[simp] theorem State.setFb_fault (s : State) (fb : Framebuffer) : (s.setFb fb).fault = s.fault := rfl
@[simp] theorem State.setFb_draws (s : State) (fb : Framebuffer) : (s.setFb fb).draws = s.draws := rfl

/-! ### `setDisplayChanged` -/

@[simp] theorem State.setDisplayChanged_v (s : State) (b : Bool) : (s.setDisplayChanged b).v = s.v := rfl
@[simp] theorem State.setDisplayChanged_pc (s : State) (b : Bool) : (s.setDisplayChanged b).pc = s.pc := rfl
@[simp] theorem State.setDisplayChanged_i (s : State) (b : Bool) : (s.setDisplayChanged b).i = s.i := rfl
@[simp] theorem State.setDisplayChanged_stack (s : State) (b : Bool) : (s.setDisplayChanged b).stack = s.stack := rfl
@[simp] theorem State.setDisplayChanged_sp (s : State) (b : Bool) : (s.setDisplayChanged b).sp = s.sp := rfl
@[simp] theorem State.setDisplayChanged_dt (s : State) (b : Bool) : (s.setDisplayChanged b).dt = s.dt := rfl
@[simp] theorem State.setDisplayChanged_st (s : State) (b : Bool) : (s.setDisplayChanged b).st = s.st := rfl
@[simp] theorem State.setDisplayChanged_mem (s : State) (b : Bool) : (s.setDisplayChanged b).mem = s.mem := rfl
@[simp] theorem State.setDisplayChanged_keys (s : State) (b : Bool) : (s.setDisplayChanged b).keys = s.keys := rfl
@[simp] theorem State.setDisplayChanged_fb (s : State) (b : Bool) : (s.setDisplayChanged b).fb = s.fb := rfl
@[simp] theorem State.setDisplayChanged_displayChanged (s : State) (b : Bool) : (s.setDisplayChanged b).displayChanged = b := rfl
@[simp] theorem State.setDisplayChanged_halted (s : State) (b : Bool) : (s.setDisplayChanged b).halted = s.halted := rfl
@[simp] theorem State.setDisplayChanged_fault (s : State) (b : Bool) : (s.setDisplayChanged b).fault = s.fault := rfl
@[simp] theorem State.setDisplayChanged_draws (s : State) (b : Bool) : (s.setDisplayChanged b).draws = s.draws := rfl

/-! ### `advance` -/

@[simp] theorem State.advance_v (s : State) : s.advance.v = s.v := rfl
@[simp] theorem State.advance_pc (s : State) : s.advance.pc = s.pc + 2 := rfl
@[simp] theorem State.advance_i (s : State) : s.advance.i = s.i := rfl
@[simp] theorem State.advance_stack (s : State) : s.advance.stack = s.stack := rfl
@[simp] theorem State.advance_sp (s : State) : s.advance.sp = s.sp := rfl
@[simp] theorem State.advance_dt (s : State) : s.advance.dt = s.dt := rfl
@[simp] theorem State.advance_st (s : State) : s.advance.st = s.st := rfl
@[simp] theorem State.advance_mem (s : State) : s.advance.mem = s.mem := rfl
@[simp] theorem State.advance_keys (s : State) : s.advance.keys = s.keys := rfl
@[simp] theorem State.advance_fb (s : State) : s.advance.fb = s.fb := rfl
@[simp] theorem State.advance_displayChanged (s : State) : s.advance.displayChanged = s.displayChanged := rfl
@[simp] theorem State.advance_halted (s : State) : s.advance.halted = s.halted := rfl
@[simp] theorem State.advance_fault (s : State) : s.advance.fault = s.fault := rfl
@[simp] theorem State.advance_draws (s : State) : s.advance.draws = s.draws := rfl

/-! ### `rewind` -/

@[simp] theorem State.rewind_v (s : State) : s.rewind.v = s.v := rfl
@[simp] theorem State.rewind_pc (s : State) : s.rewind.pc = s.pc - 2 := rfl
@[simp] theorem State.rewind_i (s : State) : s.rewind.i = s.i := rfl
@[simp] theorem State.rewind_stack (s : State) : s.rewind.stack = s.stack := rfl
@[simp] theorem State.rewind_sp (s : State) : s.rewind.sp = s.sp := rfl
@[simp] theorem State.rewind_dt (s : State) : s.rewind.dt = s.dt := rfl
@[simp] theorem State.rewind_st (s : State) : s.rewind.st = s.st := rfl
@[simp] theorem State.rewind_mem (s : State) : s.rewind.mem = s.mem := rfl
@[simp] theorem State.rewind_keys (s : State) : s.rewind.keys = s.keys := rfl
@[simp] theorem State.rewind_fb (s : State) : s.rewind.fb = s.fb := rfl
@[simp] theorem State.rewind_displayChanged (s : State) : s.rewind.displayChanged = s.displayChanged := rfl
@[simp] theorem State.rewind_halted (s : State) : s.rewind.halted = s.halted := rfl
@[simp] theorem State.rewind_fault (s : State) : s.rewind.fault = s.fault := rfl
@[simp] theorem State.rewind_draws (s : State) : s.rewind.draws = s.draws := rfl

/-! ### `countDraw` -/

@[simp] theorem State.countDraw_v (s : State) : s.countDraw.v = s.v := rfl
@[simp] theorem State.countDraw_pc (s : State) : s.countDraw.pc = s.pc := rfl
@[simp] theorem State.countDraw_i (s : State) : s.countDraw.i = s.i := rfl
@[simp] theorem State.countDraw_stack (s : State) : s.countDraw.stack = s.stack := rfl
@[simp] theorem State.countDraw_sp (s : State) : s.countDraw.sp = s.sp := rfl
@[simp] theorem State.countDraw_dt (s : State) : s.countDraw.dt = s.dt := rfl
@[simp] theorem State.countDraw_st (s : State) : s.countDraw.st = s.st := rfl
@[simp] theorem State.countDraw_mem (s : State) : s.countDraw.mem = s.mem := rfl
@[simp] theorem State.countDraw_keys (s : State) : s.countDraw.keys = s.keys := rfl
@[simp] theorem State.countDraw_fb (s : State) : s.countDraw.fb = s.fb := rfl
@[simp] theorem State.countDraw_displayChanged (s : State) : s.countDraw.displayChanged = s.displayChanged := rfl
@[simp] theorem State.countDraw_halted (s : State) : s.countDraw.halted = s.halted := rfl
@[simp] theorem State.countDraw_fault (s : State) : s.countDraw.fault = s.fault := rfl
@[simp] theorem State.countDraw_draws (s : State) : s.countDraw.draws = s.draws + 1 := rfl

/-! ### `setFlag` -/

@[simp] theorem State.setFlag_pc (s : State) (c : Bool) : (s.setFlag c).pc = s.pc := rfl
@[simp] theorem State.setFlag_i (s : State) (c : Bool) : (s.setFlag c).i = s.i := rfl
@[simp] theorem State.setFlag_stack (s : State) (c : Bool) : (s.setFlag c).stack = s.stack := rfl
@[simp] theorem State.setFlag_sp (s : State) (c : Bool) : (s.setFlag c).sp = s.sp := rfl
@[simp] theorem State.setFlag_dt (s : State) (c : Bool) : (s.setFlag c).dt = s.dt := rfl
@[simp] theorem State.setFlag_st (s : State) (c : Bool) : (s.setFlag c).st = s.st := rfl
@[simp] theorem State.setFlag_mem (s : State) (c : Bool) : (s.setFlag c).mem = s.mem := rfl
@[simp] theorem State.setFlag_keys (s : State) (c : Bool) : (s.setFlag c).keys = s.keys := rfl
@[simp] theorem State.setFlag_fb (s : State) (c : Bool) : (s.setFlag c).fb = s.fb := rfl
@[simp] theorem State.setFlag_displayChanged (s : State) (c : Bool) : (s.setFlag c).displayChanged = s.displayChanged := rfl
@[simp] theorem State.setFlag_halted (s : State) (c : Bool) : (s.setFlag c).halted = s.halted := rfl
@[simp] theorem State.setFlag_fault (s : State) (c : Bool) : (s.setFlag c).fault = s.fault := rfl
@[simp] theorem State.setFlag_draws (s : State) (c : Bool) : (s.setFlag c).draws = s.draws := rfl

/-! ### `setResultAndFlag` -/

@[simp] theorem State.setResultAndFlag_pc (s : State) (x : Nibble) (b : Byte) (c : Bool) : (s.setResultAndFlag x b c).pc = s.pc := rfl
@[simp] theorem State.setResultAndFlag_i (s : State) (x : Nibble) (b : Byte) (c : Bool) : (s.setResultAndFlag x b c).i = s.i := rfl
@[simp] theorem State.setResultAndFlag_stack (s : State) (x : Nibble) (b : Byte) (c : Bool) : (s.setResultAndFlag x b c).stack = s.stack := rfl
@[simp] theorem State.setResultAndFlag_sp (s : State) (x : Nibble) (b : Byte) (c : Bool) : (s.setResultAndFlag x b c).sp = s.sp := rfl
@[simp] theorem State.setResultAndFlag_dt (s : State) (x : Nibble) (b : Byte) (c : Bool) : (s.setResultAndFlag x b c).dt = s.dt := rfl
@[simp] theorem State.setResultAndFlag_st (s : State) (x : Nibble) (b : Byte) (c : Bool) : (s.setResultAndFlag x b c).st = s.st := rfl
@[simp] theorem State.setResultAndFlag_mem (s : State) (x : Nibble) (b : Byte) (c : Bool) : (s.setResultAndFlag x b c).mem = s.mem := rfl
@[simp] theorem State.setResultAndFlag_keys (s : State) (x : Nibble) (b : Byte) (c : Bool) : (s.setResultAndFlag x b c).keys = s.keys := rfl
@[simp] theorem State.setResultAndFlag_fb (s : State) (x : Nibble) (b : Byte) (c : Bool) : (s.setResultAndFlag x b c).fb = s.fb := rfl
@[simp] theorem State.setResultAndFlag_displayChanged (s : State) (x : Nibble) (b : Byte) (c : Bool) : (s.setResultAndFlag x b c).displayChanged = s.displayChanged := rfl
@[simp] theorem State.setResultAndFlag_halted (s : State) (x : Nibble) (b : Byte) (c : Bool) : (s.setResultAndFlag x b c).halted = s.halted := rfl
@[simp] theorem State.setResultAndFlag_fault (s : State) (x : Nibble) (b : Byte) (c : Bool) : (s.setResultAndFlag x b c).fault = s.fault := rfl
@[simp] theorem State.setResultAndFlag_draws (s : State) (x : Nibble) (b : Byte) (c : Bool) : (s.setResultAndFlag x b c).draws = s.draws := rfl

/-! ### `skipIf` -/

/-- A skip changes `pc` only, and by 2 when its condition holds (40_control_flow.md R80). -/
theorem State.skipIf_eq (s : State) (c : Bool) : s.skipIf c = s.setPc (if c then s.pc + 2 else s.pc) := by
  cases c <;> rfl

@[simp] theorem State.skipIf_v (s : State) (c : Bool) : (s.skipIf c).v = s.v := by rw [s.skipIf_eq c]; rfl
@[simp] theorem State.skipIf_pc (s : State) (c : Bool) : (s.skipIf c).pc = if c then s.pc + 2 else s.pc := by
  rw [s.skipIf_eq c]; rfl
@[simp] theorem State.skipIf_i (s : State) (c : Bool) : (s.skipIf c).i = s.i := by rw [s.skipIf_eq c]; rfl
@[simp] theorem State.skipIf_stack (s : State) (c : Bool) : (s.skipIf c).stack = s.stack := by rw [s.skipIf_eq c]; rfl
@[simp] theorem State.skipIf_sp (s : State) (c : Bool) : (s.skipIf c).sp = s.sp := by rw [s.skipIf_eq c]; rfl
@[simp] theorem State.skipIf_dt (s : State) (c : Bool) : (s.skipIf c).dt = s.dt := by rw [s.skipIf_eq c]; rfl
@[simp] theorem State.skipIf_st (s : State) (c : Bool) : (s.skipIf c).st = s.st := by rw [s.skipIf_eq c]; rfl
@[simp] theorem State.skipIf_mem (s : State) (c : Bool) : (s.skipIf c).mem = s.mem := by rw [s.skipIf_eq c]; rfl
@[simp] theorem State.skipIf_keys (s : State) (c : Bool) : (s.skipIf c).keys = s.keys := by rw [s.skipIf_eq c]; rfl
@[simp] theorem State.skipIf_fb (s : State) (c : Bool) : (s.skipIf c).fb = s.fb := by rw [s.skipIf_eq c]; rfl
@[simp] theorem State.skipIf_displayChanged (s : State) (c : Bool) : (s.skipIf c).displayChanged = s.displayChanged := by rw [s.skipIf_eq c]; rfl
@[simp] theorem State.skipIf_halted (s : State) (c : Bool) : (s.skipIf c).halted = s.halted := by rw [s.skipIf_eq c]; rfl
@[simp] theorem State.skipIf_fault (s : State) (c : Bool) : (s.skipIf c).fault = s.fault := by rw [s.skipIf_eq c]; rfl
@[simp] theorem State.skipIf_draws (s : State) (c : Bool) : (s.skipIf c).draws = s.draws := by rw [s.skipIf_eq c]; rfl

/-! ### `latchFault` -/

/-- Taking a fault on a running core (60_exceptions.md R138). -/
theorem State.latchFault_of_running (s : State) (h : s.halted = false) (k : FaultKind) (w : Word) (a : Nat) :
    s.latchFault k w a = { s with halted := true,
                                  fault := { kind := k, pc := s.pc, opcode := w, addr := BitVec.ofNat 17 a, sp := s.sp } } := by
  simp [State.latchFault, h]

/-- A halted core keeps its first record (60_exceptions.md R141). -/
theorem State.latchFault_of_halted (s : State) (h : s.halted = true) (k : FaultKind) (w : Word) (a : Nat) :
    s.latchFault k w a = s := by
  simp [State.latchFault, h]

@[simp] theorem State.latchFault_v (s : State) (k : FaultKind) (w : Word) (a : Nat) :
    (s.latchFault k w a).v = s.v := by
  unfold State.latchFault; split <;> rfl
@[simp] theorem State.latchFault_pc (s : State) (k : FaultKind) (w : Word) (a : Nat) :
    (s.latchFault k w a).pc = s.pc := by
  unfold State.latchFault; split <;> rfl
@[simp] theorem State.latchFault_i (s : State) (k : FaultKind) (w : Word) (a : Nat) :
    (s.latchFault k w a).i = s.i := by
  unfold State.latchFault; split <;> rfl
@[simp] theorem State.latchFault_stack (s : State) (k : FaultKind) (w : Word) (a : Nat) :
    (s.latchFault k w a).stack = s.stack := by
  unfold State.latchFault; split <;> rfl
@[simp] theorem State.latchFault_sp (s : State) (k : FaultKind) (w : Word) (a : Nat) :
    (s.latchFault k w a).sp = s.sp := by
  unfold State.latchFault; split <;> rfl
@[simp] theorem State.latchFault_dt (s : State) (k : FaultKind) (w : Word) (a : Nat) :
    (s.latchFault k w a).dt = s.dt := by
  unfold State.latchFault; split <;> rfl
@[simp] theorem State.latchFault_st (s : State) (k : FaultKind) (w : Word) (a : Nat) :
    (s.latchFault k w a).st = s.st := by
  unfold State.latchFault; split <;> rfl
@[simp] theorem State.latchFault_mem (s : State) (k : FaultKind) (w : Word) (a : Nat) :
    (s.latchFault k w a).mem = s.mem := by
  unfold State.latchFault; split <;> rfl
@[simp] theorem State.latchFault_keys (s : State) (k : FaultKind) (w : Word) (a : Nat) :
    (s.latchFault k w a).keys = s.keys := by
  unfold State.latchFault; split <;> rfl
@[simp] theorem State.latchFault_fb (s : State) (k : FaultKind) (w : Word) (a : Nat) :
    (s.latchFault k w a).fb = s.fb := by
  unfold State.latchFault; split <;> rfl
@[simp] theorem State.latchFault_displayChanged (s : State) (k : FaultKind) (w : Word) (a : Nat) :
    (s.latchFault k w a).displayChanged = s.displayChanged := by
  unfold State.latchFault; split <;> rfl
@[simp] theorem State.latchFault_halted (s : State) (k : FaultKind) (w : Word) (a : Nat) :
    (s.latchFault k w a).halted = true := by
  unfold State.latchFault; split <;> simp_all
@[simp] theorem State.latchFault_draws (s : State) (k : FaultKind) (w : Word) (a : Nat) :
    (s.latchFault k w a).draws = s.draws := by
  unfold State.latchFault; split <;> rfl

/-! ### `getV` -/

/-- Reading back the register just written. -/
@[simp] theorem State.getV_setV_same (s : State) (r : Nibble) (b : Byte) : (s.setV r b).getV r = b := by
  simp [State.getV, State.setV]

/-- Writing one register leaves the others (10_state.md R39: no aliases). -/
theorem State.getV_setV_ne (s : State) {r q : Nibble} (b : Byte) (h : q ≠ r) : (s.setV r b).getV q = s.getV q := by
  have : r.toNat ≠ q.toNat := fun e => h (BitVec.eq_of_toNat_eq e.symm)
  simp [State.getV, State.setV, this]

/-- Register read after a register write, both cases. -/
theorem State.getV_setV (s : State) (r q : Nibble) (b : Byte) :
    (s.setV r b).getV q = if q = r then b else s.getV q := by
  split
  · next h => rw [h, State.getV_setV_same]
  · next h => exact State.getV_setV_ne s b h

/-- VF after a flag write. -/
@[simp] theorem State.getV_setFlag_flagReg (s : State) (c : Bool) : (s.setFlag c).getV Config.flagReg = flagByte c :=
  State.getV_setV_same _ _ _

/-- The other registers after a flag write. -/
theorem State.getV_setFlag_ne (s : State) (c : Bool) {q : Nibble} (h : q ≠ Config.flagReg) :
    (s.setFlag c).getV q = s.getV q := State.getV_setV_ne _ _ h

/-- VF after a result and a flag: the flag, whatever `x` is (41_alu.md R91). -/
@[simp] theorem State.getV_setResultAndFlag_flagReg (s : State) (x : Nibble) (b : Byte) (c : Bool) :
    (s.setResultAndFlag x b c).getV Config.flagReg = flagByte c := State.getV_setFlag_flagReg _ _

/-- `V[x]` after a result and a flag, when `x` is not VF. -/
theorem State.getV_setResultAndFlag_result (s : State) {x : Nibble} (b : Byte) (c : Bool) (h : x ≠ Config.flagReg) :
    (s.setResultAndFlag x b c).getV x = b := by
  rw [State.setResultAndFlag, State.getV_setFlag_ne _ _ h, State.getV_setV_same]

/-- The other registers after a result and a flag. -/
theorem State.getV_setResultAndFlag_ne (s : State) {x q : Nibble} (b : Byte) (c : Bool) (h : q ≠ x)
    (hf : q ≠ Config.flagReg) : (s.setResultAndFlag x b c).getV q = s.getV q := by
  rw [State.setResultAndFlag, State.getV_setFlag_ne _ _ hf, State.getV_setV_ne _ _ h]

@[simp] theorem State.setPc_getV (s : State) (a : Word) (q : Nibble) : (s.setPc a).getV q = s.getV q := rfl
@[simp] theorem State.setI_getV (s : State) (a : Word) (q : Nibble) : (s.setI a).getV q = s.getV q := rfl
@[simp] theorem State.setDt_getV (s : State) (b : Byte) (q : Nibble) : (s.setDt b).getV q = s.getV q := rfl
@[simp] theorem State.setSt_getV (s : State) (b : Byte) (q : Nibble) : (s.setSt b).getV q = s.getV q := rfl
@[simp] theorem State.setMem_getV (s : State) (m : Memory) (q : Nibble) : (s.setMem m).getV q = s.getV q := rfl
@[simp] theorem State.setKeys_getV (s : State) (k : Keys) (q : Nibble) : (s.setKeys k).getV q = s.getV q := rfl
@[simp] theorem State.setFb_getV (s : State) (fb : Framebuffer) (q : Nibble) : (s.setFb fb).getV q = s.getV q := rfl
@[simp] theorem State.setDisplayChanged_getV (s : State) (b : Bool) (q : Nibble) : (s.setDisplayChanged b).getV q = s.getV q := rfl
@[simp] theorem State.advance_getV (s : State) (q : Nibble) : s.advance.getV q = s.getV q := rfl
@[simp] theorem State.rewind_getV (s : State) (q : Nibble) : s.rewind.getV q = s.getV q := rfl
@[simp] theorem State.countDraw_getV (s : State) (q : Nibble) : s.countDraw.getV q = s.getV q := rfl
@[simp] theorem State.skipIf_getV (s : State) (c : Bool) (q : Nibble) : (s.skipIf c).getV q = s.getV q := by
  rw [s.skipIf_eq c]; rfl
@[simp] theorem State.latchFault_getV (s : State) (k : FaultKind) (w : Word) (a : Nat) (q : Nibble) :
    (s.latchFault k w a).getV q = s.getV q := by
  unfold State.latchFault; split <;> rfl

/-! ### `pc` there and back -/

/-- The rewind undoes the fetch's advance (10_state.md R19). -/
@[simp] theorem State.rewind_advance (s : State) : s.advance.rewind = s := by
  simp [State.advance, State.rewind, State.setPc]

end Sys2Proof.Machine
end

