-- ==== Sys2Proof/Laws/Ops.lean ====
section
/-! SUPPORT. One lemma for each shared operation, saying everything it can do; later proofs cite these. -/

namespace Sys2Proof.Machine

/-! ## Call stack -/

/-- `Push` below capacity (10_state.md R22). -/
theorem State.push_of_lt (s : State) (a : Word) (h : s.sp.val < 16) :
    s.push a = some { s with stack := s.stack.set s.sp.val a h, sp := ⟨s.sp.val + 1, by omega⟩ } := by
  simp [State.push, h]

/-- `Push` at capacity. -/
theorem State.push_of_full (s : State) (a : Word) (h : s.sp.val = 16) : s.push a = none := by
  simp [State.push, h]

/-- What `Push` can answer. -/
theorem State.push_cases (s : State) (a : Word) :
    (∃ h : s.sp.val < 16, s.push a = some { s with stack := s.stack.set s.sp.val a h, sp := ⟨s.sp.val + 1, by omega⟩ }) ∨
    (s.sp.val = 16 ∧ s.push a = none) := by
  by_cases h : s.sp.val < 16
  · exact .inl ⟨h, s.push_of_lt a h⟩
  · have : s.sp.val = 16 := by have := s.sp.isLt; omega
    exact .inr ⟨this, s.push_of_full a this⟩

/-- `Pop` of a stack in use (10_state.md R23). -/
theorem State.pop_of_pos (s : State) (h : 0 < s.sp.val) :
    s.pop = some (s.stack[s.sp.val - 1]'(by omega), { s with sp := ⟨s.sp.val - 1, by omega⟩ }) := by
  have : ¬ s.sp.val = 0 := by omega
  simp only [State.pop, this, dite_false]

/-- `Pop` of an empty stack. -/
theorem State.pop_of_empty (s : State) (h : s.sp.val = 0) : s.pop = none := by
  simp only [State.pop, h, dite_true]

/-- What `Pop` can answer. -/
theorem State.pop_cases (s : State) :
    (∃ h : 0 < s.sp.val,
      s.pop = some (s.stack[s.sp.val - 1]'(by omega), { s with sp := ⟨s.sp.val - 1, by omega⟩ })) ∨
    (s.sp.val = 0 ∧ s.pop = none) := by
  by_cases h : 0 < s.sp.val
  · exact .inl ⟨h, s.pop_of_pos h⟩
  · exact .inr ⟨by omega, s.pop_of_empty (by omega)⟩

/-! ## Faults, fetch, transfers -/

/-- `raise` always has a next state: the fault taken at the instruction's own address. -/
theorem raise_eq (i : Instr) (k : FaultKind) (a : Nat) (s : State) :
    raise i k a s = .next (s.rewind.latchFault k (encode i) a) := rfl

/-- The fetch answers a word exactly when both bytes are in memory (20_memory.md R44). -/
theorem State.fetchWord_of_le (s : State) (h : s.pc.toNat ≤ 4094) :
    s.fetchWord = some (wordOfBytes (s.mem.byteAt s.pc.toNat) (s.mem.byteAt (s.pc.toNat + 1))) := by
  have hr : s.mem.read s.pc.toNat 2 = some (s.mem.bytesFrom s.pc.toNat 2) :=
    (Memory.read_eq_some_iff _ _ _ _).2 ⟨.inr (by omega), rfl⟩
  simp [State.fetchWord, hr, Memory.bytesFrom]

theorem State.fetchWord_of_gt (s : State) (h : 4094 < s.pc.toNat) : s.fetchWord = none := by
  have hr : s.mem.read s.pc.toNat 2 = none := (Memory.read_eq_none_iff _ _ _).2 ⟨by omega, by omega⟩
  simp [State.fetchWord, hr]

/-- What the fetch and decode phases can give (60_exceptions.md R140). -/
theorem State.fetchDecode_cases (s : State) :
    (4094 < s.pc.toNat ∧ s.fetchDecode = .raised .memoryRange 0 (firstOutOfRange s.pc.toNat)) ∨
    (s.pc.toNat ≤ 4094 ∧ ∃ w, s.fetchWord = some w ∧
      ((∃ i, decode w = .insn i ∧ s.fetchDecode = .run i) ∨
       (∃ c, decode w = .illegal c ∧ s.fetchDecode = .raised .decodeError w 0))) := by
  by_cases h : s.pc.toNat ≤ 4094
  · refine .inr ⟨h, _, s.fetchWord_of_le h, ?_⟩
    cases hd : decode (wordOfBytes (s.mem.byteAt s.pc.toNat) (s.mem.byteAt (s.pc.toNat + 1))) with
    | insn i => exact .inl ⟨i, rfl, by simp [State.fetchDecode, s.fetchWord_of_le h, hd]⟩
    | illegal c => exact .inr ⟨c, rfl, by simp [State.fetchDecode, s.fetchWord_of_le h, hd]⟩
  · exact .inl ⟨by omega, by simp [State.fetchDecode, s.fetchWord_of_gt (by omega)]⟩

/-- What a transfer of bytes to memory at `I` can do. -/
theorem storeAtI_cases (i : Instr) (bytes : List Byte) (s : State) :
    ((bytes.length = 0 ∨ s.effectiveAddr 0 + bytes.length ≤ 4096) ∧
      storeAtI i bytes s = .next (s.setMem (s.mem.setBytes (s.effectiveAddr 0) bytes))) ∨
    (bytes.length ≠ 0 ∧ 4096 < s.effectiveAddr 0 + bytes.length ∧
      storeAtI i bytes s = raise i .memoryRange (firstOutOfRange (s.effectiveAddr 0)) s) := by
  by_cases h : bytes.length = 0 ∨ s.effectiveAddr 0 + bytes.length ≤ 4096
  · have hw := (Memory.write_eq_some_iff s.mem (s.effectiveAddr 0) bytes _).2 ⟨h, rfl⟩
    exact .inl ⟨h, by simp [storeAtI, hw]⟩
  · have h' : bytes.length ≠ 0 ∧ 4096 < s.effectiveAddr 0 + bytes.length := by omega
    have hw := (Memory.write_eq_none_iff s.mem (s.effectiveAddr 0) bytes).2 h'
    exact .inr ⟨h'.1, h'.2, by simp [storeAtI, hw]⟩

@[simp] theorem length_bcdDigits (v : Byte) : (bcdDigits v).length = 3 := rfl

@[simp] theorem length_regsUpTo (s : State) (x : Nibble) : (s.regsUpTo x).length = x.toNat + 1 := by
  have := x.isLt
  simp [State.regsUpTo]; omega

/-- Operand `k` of `LD [I],Vx` is `V[k]` (42_index_memory.md R110). -/
theorem getElem?_regsUpTo (s : State) (x k : Nibble) (h : k.toNat ≤ x.toNat) :
    (s.regsUpTo x)[k.toNat]? = some (s.getV k) := by
  have hk := k.isLt
  simp [State.regsUpTo, State.getV, Nat.lt_succ_of_le h, hk]

/-- `writeFrom k bytes` writes registers `k`, `k + 1`, … and leaves the others. -/
theorem Regs.getElem_writeFrom (bytes : List Byte) : ∀ (v : Regs) (k j : Nat) (hj : j < 16),
    (v.writeFrom k bytes)[j] = if k ≤ j then (bytes[j - k]?).getD v[j] else v[j] := by
  induction bytes with
  | nil => intro v k j hj; simp [Regs.writeFrom]
  | cons b bs ih =>
    intro v k j hj
    rw [Regs.writeFrom, ih]
    by_cases h1 : k + 1 ≤ j
    · have h2 : k ≤ j := by omega
      have h3 : ¬ k = j := by omega
      have h4 : j - k = (j - (k + 1)) + 1 := by omega
      simp [h1, h2, h3, h4]
    · by_cases h2 : k = j
      · subst h2; simp
      · have h3 : ¬ k ≤ j := by omega
        simp [h1, h2, h3]

/-! ## Keys -/

/-- A key number up to 15 names a key (44_keys_timers.md R122). -/
theorem Keys.pressed?_of_lt (keys : Keys) (k : Byte) (h : k.toNat < 16) : keys.pressed? k = some keys[k.toNat] := by
  simp [Keys.pressed?, h]

theorem Keys.pressed?_of_ge (keys : Keys) (k : Byte) (h : 15 < k.toNat) : keys.pressed? k = none := by
  have : ¬ k.toNat < 16 := by omega
  simp [Keys.pressed?, this]

/-- No key found exactly when no key is pressed. -/
theorem Keys.lowestPressed_eq_none_iff (keys : Keys) : keys.lowestPressed = none ↔ ∀ k : Fin 16, keys[k] = false := by
  simp [Keys.lowestPressed]

/-- The key found is pressed and no lower one is (44_keys_timers.md R126). -/
theorem Keys.lowestPressed_spec {keys : Keys} {k : Fin 16} (h : keys.lowestPressed = some k) :
    keys[k] = true ∧ ∀ j : Fin 16, j < k → keys[j] = false := by
  unfold Keys.lowestPressed at h
  obtain ⟨h1, as, bs, h2, h3⟩ := List.find?_eq_some_iff_append.1 h
  refine ⟨h1, fun j hj => ?_⟩
  have hs : (as ++ k :: bs).Pairwise (· < ·) := h2 ▸ List.pairwise_lt_finRange 16
  have hm : j ∈ as ++ k :: bs := h2 ▸ List.mem_finRange j
  rcases List.mem_append.1 hm with hm | hm
  · simpa using h3 j hm
  · exfalso
    have hs' := (List.pairwise_append.1 hs).2.1
    rcases List.mem_cons.1 hm with rfl | hm
    · exact absurd hj (lt_irrefl _)
    · exact absurd (List.rel_of_pairwise_cons hs' hm) (not_lt_of_gt hj)

/-! ## Display -/

/-- A flip inverts its own pixel and leaves every other. -/
theorem Framebuffer.pixel_flip (fb : Framebuffer) (Y Y' : Fin 32) (X X' : Fin 64) :
    (fb.flip Y X).pixel Y' X' = if Y' = Y ∧ X' = X then !fb.pixel Y X else fb.pixel Y' X' := by
  unfold Framebuffer.flip Framebuffer.pixel
  simp only [Fin.getElem_fin, Vector.getElem_set]
  by_cases hY : Y.val = Y'.val
  · have hY' : Y' = Y := Fin.ext hY.symm
    subst hY'
    by_cases hX : X.val = X'.val
    · have hX' : X' = X := Fin.ext hX.symm
      subst hX'; simp
    · have hX' : ¬ X' = X := fun e => hX (by rw [e])
      simp [hX, hX']
  · have hY' : ¬ Y' = Y := fun e => hY (by rw [e])
    simp [hY, hY']

@[simp] theorem Framebuffer.pixel_clear (Y : Fin 32) (X : Fin 64) : Framebuffer.clear.pixel Y X = false := by
  simp [Framebuffer.clear, Framebuffer.pixel]

/-- Two framebuffers with the same pixels are the same. -/
theorem Framebuffer.ext_pixel {fb fb' : Framebuffer} (h : ∀ Y X, fb.pixel Y X = fb'.pixel Y X) : fb = fb' := by
  apply Vector.ext
  intro Y hY
  apply Vector.ext
  intro X hX
  exact h ⟨Y, hY⟩ ⟨X, hX⟩

/-! ## Timers -/

/-- A timer goes down by one and stops at 0 (60_exceptions.md R146). -/
theorem toNat_tickTimer (t : Byte) : (tickTimer t).toNat = t.toNat - 1 := by
  unfold tickTimer
  split
  · next h => subst h; rfl
  · next h =>
    have h0 : t.toNat ≠ 0 := fun e => h (BitVec.eq_of_toNat_eq (by simpa using e))
    have := t.isLt
    rw [BitVec.toNat_sub]
    simp; omega

end Sys2Proof.Machine
end

