-- ==== Sys2Proof/Laws/PerInstr.lean ====
section
/-! SUPPORT. Statements about every instruction as syntax, one lemma per constructor. -/

/-- The operands of every instruction fit the fields of its format (30_encoding.md R61, R62). -/
def Sys2Proof.Laws.Fits.Statement (i : Sys2Proof.Instr) : Prop := i.wellFormed = true

/-- The word of every instruction selects the row of the opcode map that has its mnemonic and format (30_encoding.md
R65; log 1). -/
def Sys2Proof.Laws.InMap.Statement (i : Sys2Proof.Instr) : Prop :=
  ∃ r ∈ Sys2Proof.opcodeMap, r.mnemonic = i.mnemonic ∧ r.format = i.format ∧ r.selects (Sys2Proof.encode i)

namespace Sys2Proof.Laws.Fits

/-- What `Format.fits` asks of each format, for operands that are bit vectors of the field's width. -/
theorem fits_A (nnn : Addr) : Format.fits .A { nnn := nnn.toNat } = true := by
  simpa [Format.fits] using nnn.isLt
theorem fits_XK (x : Nibble) (kk : Byte) : Format.fits .XK { x := x.toNat, kk := kk.toNat } = true := by
  simpa [Format.fits] using And.intro x.isLt kk.isLt
theorem fits_XY (x y : Nibble) : Format.fits .XY { x := x.toNat, y := y.toNat } = true := by
  simpa [Format.fits] using And.intro x.isLt y.isLt
theorem fits_XYN (x y n : Nibble) : Format.fits .XYN { x := x.toNat, y := y.toNat, n := n.toNat } = true := by
  simpa [Format.fits, and_assoc] using And.intro x.isLt (And.intro y.isLt n.isLt)
theorem fits_X (x : Nibble) : Format.fits .X { x := x.toNat } = true := by
  simpa [Format.fits] using x.isLt

theorem cls : Statement (.cls) := rfl
theorem ret : Statement (.ret) := rfl
theorem jp (nnn : Addr) : Statement (.jp nnn) := fits_A nnn
theorem call (nnn : Addr) : Statement (.call nnn) := fits_A nnn
theorem seImm (x : Nibble) (kk : Byte) : Statement (.seImm x kk) := fits_XK x kk
theorem sneImm (x : Nibble) (kk : Byte) : Statement (.sneImm x kk) := fits_XK x kk
theorem seReg (x y : Nibble) : Statement (.seReg x y) := fits_XY x y
theorem ldImm (x : Nibble) (kk : Byte) : Statement (.ldImm x kk) := fits_XK x kk
theorem addImm (x : Nibble) (kk : Byte) : Statement (.addImm x kk) := fits_XK x kk
theorem ldReg (x y : Nibble) : Statement (.ldReg x y) := fits_XY x y
theorem orReg (x y : Nibble) : Statement (.orReg x y) := fits_XY x y
theorem andReg (x y : Nibble) : Statement (.andReg x y) := fits_XY x y
theorem xorReg (x y : Nibble) : Statement (.xorReg x y) := fits_XY x y
theorem addReg (x y : Nibble) : Statement (.addReg x y) := fits_XY x y
theorem subReg (x y : Nibble) : Statement (.subReg x y) := fits_XY x y
theorem shr (x y : Nibble) : Statement (.shr x y) := fits_XY x y
theorem subnReg (x y : Nibble) : Statement (.subnReg x y) := fits_XY x y
theorem shl (x y : Nibble) : Statement (.shl x y) := fits_XY x y
theorem sneReg (x y : Nibble) : Statement (.sneReg x y) := fits_XY x y
theorem ldI (nnn : Addr) : Statement (.ldI nnn) := fits_A nnn
theorem jpV0 (nnn : Addr) : Statement (.jpV0 nnn) := fits_A nnn
theorem rnd (x : Nibble) (kk : Byte) : Statement (.rnd x kk) := fits_XK x kk
theorem drw (x y n : Nibble) : Statement (.drw x y n) := fits_XYN x y n
theorem skp (x : Nibble) : Statement (.skp x) := fits_X x
theorem sknp (x : Nibble) : Statement (.sknp x) := fits_X x
theorem ldVxDt (x : Nibble) : Statement (.ldVxDt x) := fits_X x
theorem ldVxK (x : Nibble) : Statement (.ldVxK x) := fits_X x
theorem ldDtVx (x : Nibble) : Statement (.ldDtVx x) := fits_X x
theorem ldStVx (x : Nibble) : Statement (.ldStVx x) := fits_X x
theorem addI (x : Nibble) : Statement (.addI x) := fits_X x
theorem ldF (x : Nibble) : Statement (.ldF x) := fits_X x
theorem ldB (x : Nibble) : Statement (.ldB x) := fits_X x
theorem storeRegs (x : Nibble) : Statement (.storeRegs x) := fits_X x
theorem loadRegs (x : Nibble) : Statement (.loadRegs x) := fits_X x

end Sys2Proof.Laws.Fits

namespace Sys2Proof.Laws.InMap

theorem cls : Statement (.cls) :=
  ⟨⟨"CLS", .Z, 0xFFFF, 0x00E0⟩, by decide, rfl, rfl, rfl⟩
theorem ret : Statement (.ret) :=
  ⟨⟨"RET", .Z, 0xFFFF, 0x00EE⟩, by decide, rfl, rfl, rfl⟩
theorem jp (nnn : Addr) : Statement (.jp nnn) :=
  ⟨⟨"JP nnn", .A, 0xF000, 0x1000⟩, by decide, rfl, rfl, (and_maskA _).trans (by simp only [encode, fieldOp_encodeA]; rfl)⟩
theorem call (nnn : Addr) : Statement (.call nnn) :=
  ⟨⟨"CALL nnn", .A, 0xF000, 0x2000⟩, by decide, rfl, rfl, (and_maskA _).trans (by simp only [encode, fieldOp_encodeA]; rfl)⟩
theorem seImm (x : Nibble) (kk : Byte) : Statement (.seImm x kk) :=
  ⟨⟨"SE Vx,kk", .XK, 0xF000, 0x3000⟩, by decide, rfl, rfl, (and_maskA _).trans (by simp only [encode, fieldOp_encodeXK]; rfl)⟩
theorem sneImm (x : Nibble) (kk : Byte) : Statement (.sneImm x kk) :=
  ⟨⟨"SNE Vx,kk", .XK, 0xF000, 0x4000⟩, by decide, rfl, rfl, (and_maskA _).trans (by simp only [encode, fieldOp_encodeXK]; rfl)⟩
theorem seReg (x y : Nibble) : Statement (.seReg x y) :=
  ⟨⟨"SE Vx,Vy", .XY, 0xF00F, 0x5000⟩, by decide, rfl, rfl, (and_maskXY _).trans (by simp only [encode, fieldOp_encodeXYN, fieldN_encodeXYN]; rfl)⟩
theorem ldImm (x : Nibble) (kk : Byte) : Statement (.ldImm x kk) :=
  ⟨⟨"LD Vx,kk", .XK, 0xF000, 0x6000⟩, by decide, rfl, rfl, (and_maskA _).trans (by simp only [encode, fieldOp_encodeXK]; rfl)⟩
theorem addImm (x : Nibble) (kk : Byte) : Statement (.addImm x kk) :=
  ⟨⟨"ADD Vx,kk", .XK, 0xF000, 0x7000⟩, by decide, rfl, rfl, (and_maskA _).trans (by simp only [encode, fieldOp_encodeXK]; rfl)⟩
theorem ldReg (x y : Nibble) : Statement (.ldReg x y) :=
  ⟨⟨"LD Vx,Vy", .XY, 0xF00F, 0x8000⟩, by decide, rfl, rfl, (and_maskXY _).trans (by simp only [encode, fieldOp_encodeXYN, fieldN_encodeXYN]; rfl)⟩
theorem orReg (x y : Nibble) : Statement (.orReg x y) :=
  ⟨⟨"OR Vx,Vy", .XY, 0xF00F, 0x8001⟩, by decide, rfl, rfl, (and_maskXY _).trans (by simp only [encode, fieldOp_encodeXYN, fieldN_encodeXYN]; rfl)⟩
theorem andReg (x y : Nibble) : Statement (.andReg x y) :=
  ⟨⟨"AND Vx,Vy", .XY, 0xF00F, 0x8002⟩, by decide, rfl, rfl, (and_maskXY _).trans (by simp only [encode, fieldOp_encodeXYN, fieldN_encodeXYN]; rfl)⟩
theorem xorReg (x y : Nibble) : Statement (.xorReg x y) :=
  ⟨⟨"XOR Vx,Vy", .XY, 0xF00F, 0x8003⟩, by decide, rfl, rfl, (and_maskXY _).trans (by simp only [encode, fieldOp_encodeXYN, fieldN_encodeXYN]; rfl)⟩
theorem addReg (x y : Nibble) : Statement (.addReg x y) :=
  ⟨⟨"ADD Vx,Vy", .XY, 0xF00F, 0x8004⟩, by decide, rfl, rfl, (and_maskXY _).trans (by simp only [encode, fieldOp_encodeXYN, fieldN_encodeXYN]; rfl)⟩
theorem subReg (x y : Nibble) : Statement (.subReg x y) :=
  ⟨⟨"SUB Vx,Vy", .XY, 0xF00F, 0x8005⟩, by decide, rfl, rfl, (and_maskXY _).trans (by simp only [encode, fieldOp_encodeXYN, fieldN_encodeXYN]; rfl)⟩
theorem shr (x y : Nibble) : Statement (.shr x y) :=
  ⟨⟨"SHR Vx", .XY, 0xF00F, 0x8006⟩, by decide, rfl, rfl, (and_maskXY _).trans (by simp only [encode, fieldOp_encodeXYN, fieldN_encodeXYN]; rfl)⟩
theorem subnReg (x y : Nibble) : Statement (.subnReg x y) :=
  ⟨⟨"SUBN Vx,Vy", .XY, 0xF00F, 0x8007⟩, by decide, rfl, rfl, (and_maskXY _).trans (by simp only [encode, fieldOp_encodeXYN, fieldN_encodeXYN]; rfl)⟩
theorem shl (x y : Nibble) : Statement (.shl x y) :=
  ⟨⟨"SHL Vx", .XY, 0xF00F, 0x800E⟩, by decide, rfl, rfl, (and_maskXY _).trans (by simp only [encode, fieldOp_encodeXYN, fieldN_encodeXYN]; rfl)⟩
theorem sneReg (x y : Nibble) : Statement (.sneReg x y) :=
  ⟨⟨"SNE Vx,Vy", .XY, 0xF00F, 0x9000⟩, by decide, rfl, rfl, (and_maskXY _).trans (by simp only [encode, fieldOp_encodeXYN, fieldN_encodeXYN]; rfl)⟩
theorem ldI (nnn : Addr) : Statement (.ldI nnn) :=
  ⟨⟨"LD I,nnn", .A, 0xF000, 0xA000⟩, by decide, rfl, rfl, (and_maskA _).trans (by simp only [encode, fieldOp_encodeA]; rfl)⟩
theorem jpV0 (nnn : Addr) : Statement (.jpV0 nnn) :=
  ⟨⟨"JP V0,nnn", .A, 0xF000, 0xB000⟩, by decide, rfl, rfl, (and_maskA _).trans (by simp only [encode, fieldOp_encodeA]; rfl)⟩
theorem rnd (x : Nibble) (kk : Byte) : Statement (.rnd x kk) :=
  ⟨⟨"RND Vx,kk", .XK, 0xF000, 0xC000⟩, by decide, rfl, rfl, (and_maskA _).trans (by simp only [encode, fieldOp_encodeXK]; rfl)⟩
theorem drw (x y n : Nibble) : Statement (.drw x y n) :=
  ⟨⟨"DRW Vx,Vy,n", .XYN, 0xF000, 0xD000⟩, by decide, rfl, rfl, (and_maskA _).trans (by simp only [encode, fieldOp_encodeXYN]; rfl)⟩
theorem skp (x : Nibble) : Statement (.skp x) :=
  ⟨⟨"SKP Vx", .X, 0xF0FF, 0xE09E⟩, by decide, rfl, rfl, (and_maskX _).trans (by simp only [encode, fieldOp_encodeXK, fieldKk_encodeXK]; rfl)⟩
theorem sknp (x : Nibble) : Statement (.sknp x) :=
  ⟨⟨"SKNP Vx", .X, 0xF0FF, 0xE0A1⟩, by decide, rfl, rfl, (and_maskX _).trans (by simp only [encode, fieldOp_encodeXK, fieldKk_encodeXK]; rfl)⟩
theorem ldVxDt (x : Nibble) : Statement (.ldVxDt x) :=
  ⟨⟨"LD Vx,DT", .X, 0xF0FF, 0xF007⟩, by decide, rfl, rfl, (and_maskX _).trans (by simp only [encode, fieldOp_encodeXK, fieldKk_encodeXK]; rfl)⟩
theorem ldVxK (x : Nibble) : Statement (.ldVxK x) :=
  ⟨⟨"LD Vx,K", .X, 0xF0FF, 0xF00A⟩, by decide, rfl, rfl, (and_maskX _).trans (by simp only [encode, fieldOp_encodeXK, fieldKk_encodeXK]; rfl)⟩
theorem ldDtVx (x : Nibble) : Statement (.ldDtVx x) :=
  ⟨⟨"LD DT,Vx", .X, 0xF0FF, 0xF015⟩, by decide, rfl, rfl, (and_maskX _).trans (by simp only [encode, fieldOp_encodeXK, fieldKk_encodeXK]; rfl)⟩
theorem ldStVx (x : Nibble) : Statement (.ldStVx x) :=
  ⟨⟨"LD ST,Vx", .X, 0xF0FF, 0xF018⟩, by decide, rfl, rfl, (and_maskX _).trans (by simp only [encode, fieldOp_encodeXK, fieldKk_encodeXK]; rfl)⟩
theorem addI (x : Nibble) : Statement (.addI x) :=
  ⟨⟨"ADD I,Vx", .X, 0xF0FF, 0xF01E⟩, by decide, rfl, rfl, (and_maskX _).trans (by simp only [encode, fieldOp_encodeXK, fieldKk_encodeXK]; rfl)⟩
theorem ldF (x : Nibble) : Statement (.ldF x) :=
  ⟨⟨"LD F,Vx", .X, 0xF0FF, 0xF029⟩, by decide, rfl, rfl, (and_maskX _).trans (by simp only [encode, fieldOp_encodeXK, fieldKk_encodeXK]; rfl)⟩
theorem ldB (x : Nibble) : Statement (.ldB x) :=
  ⟨⟨"LD B,Vx", .X, 0xF0FF, 0xF033⟩, by decide, rfl, rfl, (and_maskX _).trans (by simp only [encode, fieldOp_encodeXK, fieldKk_encodeXK]; rfl)⟩
theorem storeRegs (x : Nibble) : Statement (.storeRegs x) :=
  ⟨⟨"LD [I],Vx", .X, 0xF0FF, 0xF055⟩, by decide, rfl, rfl, (and_maskX _).trans (by simp only [encode, fieldOp_encodeXK, fieldKk_encodeXK]; rfl)⟩
theorem loadRegs (x : Nibble) : Statement (.loadRegs x) :=
  ⟨⟨"LD Vx,[I]", .X, 0xF0FF, 0xF065⟩, by decide, rfl, rfl, (and_maskX _).trans (by simp only [encode, fieldOp_encodeXK, fieldKk_encodeXK]; rfl)⟩

end Sys2Proof.Laws.InMap
end

