-- ==== Sys2Proof/Laws/Step.lean ====
section
/-! SUPPORT. What one instruction and one STEP can do, said once; later proofs cite these instead of unfolding `exec` or
`step`. -/

namespace Sys2Proof.Machine

/-- What a transfer of bytes to memory leaves, when it answers a next state (it always does). -/
theorem storeAtI_next {i : Instr} {bytes : List Byte} {s t : State} (h : storeAtI i bytes s = .next t) :
    ((bytes.length = 0 ∨ s.effectiveAddr 0 + bytes.length ≤ 4096) ∧
      t = s.setMem (s.mem.setBytes (s.effectiveAddr 0) bytes)) ∨
    ∃ k a, t = s.rewind.latchFault k (encode i) a := by
  rcases storeAtI_cases i bytes s with ⟨hr, e⟩ | ⟨_, _, e⟩ <;> rw [e] at h <;> cases h
  · exact .inl ⟨hr, rfl⟩
  · exact .inr ⟨_, _, rfl⟩

/-- An instruction either raises a fault of a step, or completes with the latch and the record as they were. -/
theorem exec_cases (i : Instr) (s : State) :
    (∃ k a, exec i s = raise i k a s ∧ k ≠ .none ∧ k ≠ .loadRange) ∨
    ∃ t, exec i s = .next t ∧ t.halted = s.halted ∧ t.fault = s.fault := by
  cases i with
  | ret =>
    rcases s.pop_cases with ⟨h, e⟩ | ⟨h, e⟩
    · refine .inr ⟨_, (by simp only [exec, execRet, e]; rfl), ?_, ?_⟩ <;> rfl
    · refine .inl ⟨_, _, (by simp only [exec, execRet, e]; rfl), ?_, ?_⟩ <;> decide
  | call nnn =>
    rcases s.push_cases s.pc with ⟨h, e⟩ | ⟨h, e⟩
    · refine .inr ⟨_, (by simp only [exec, execCall, e]; rfl), ?_, ?_⟩ <;> rfl
    · refine .inl ⟨_, _, (by simp only [exec, execCall, e]; rfl), ?_, ?_⟩ <;> decide
  | ldB x =>
    rcases storeAtI_cases (.ldB x) (bcdDigits (s.getV x)) s with ⟨_, e⟩ | ⟨_, _, e⟩
    · exact .inr ⟨_, e, rfl, rfl⟩
    · exact .inl ⟨_, _, e, by decide, by decide⟩
  | storeRegs x =>
    rcases storeAtI_cases (.storeRegs x) (s.regsUpTo x) s with ⟨_, e⟩ | ⟨_, _, e⟩
    · exact .inr ⟨_, e, rfl, rfl⟩
    · exact .inl ⟨_, _, e, by decide, by decide⟩
  | loadRegs x =>
    cases e : s.mem.read (s.effectiveAddr 0) (x.toNat + 1) with
    | some b => refine .inr ⟨_, (by simp only [exec, execLoadRegs, e]; rfl), ?_, ?_⟩ <;> rfl
    | none => refine .inl ⟨_, _, (by simp only [exec, execLoadRegs, e]; rfl), ?_, ?_⟩ <;> decide
  | drw x y n =>
    cases e : s.mem.read (s.effectiveAddr 0) n.toNat with
    | some b => refine .inr ⟨_, (by simp only [exec, execDrw, e]; rfl), ?_, ?_⟩ <;> rfl
    | none => refine .inl ⟨_, _, (by simp only [exec, execDrw, e]; rfl), ?_, ?_⟩ <;> decide
  | skp x =>
    cases e : s.keys.pressed? (s.getV x) with
    | some b => refine .inr ⟨_, (by simp only [exec, execSkp, e]; rfl), ?_, ?_⟩ <;> simp
    | none => refine .inl ⟨_, _, (by simp only [exec, execSkp, e]; rfl), ?_, ?_⟩ <;> decide
  | sknp x =>
    cases e : s.keys.pressed? (s.getV x) with
    | some b => refine .inr ⟨_, (by simp only [exec, execSknp, e]; rfl), ?_, ?_⟩ <;> simp
    | none => refine .inl ⟨_, _, (by simp only [exec, execSknp, e]; rfl), ?_, ?_⟩ <;> decide
  | ldVxK x =>
    cases e : s.keys.lowestPressed with
    | some b => refine .inr ⟨_, (by simp only [exec, execLdVxK, e]; rfl), ?_, ?_⟩ <;> rfl
    | none => refine .inr ⟨_, (by simp only [exec, execLdVxK, e]; rfl), ?_, ?_⟩ <;> rfl
  | _ => exact .inr ⟨_, rfl, by simp, by simp⟩

/-- The step of a running core whose fetch gives an instruction. -/
theorem step_of_run {s : State} {i : Instr} (h : s.halted = false) (e : s.fetchDecode = .run i) :
    step s = exec i s.advance := by
  simp [step, h, e]

/-- What the step of a running core can do: take a fault at the unchanged state, or complete one instruction. -/
theorem step_cases (s : State) (h : s.halted = false) :
    (∃ k w a, step s = .next (s.latchFault k w a) ∧ k ≠ .none ∧ k ≠ .loadRange) ∨
    ∃ i t, s.fetchDecode = .run i ∧ exec i s.advance = .next t ∧ step s = .next t ∧ t.halted = false ∧
      t.fault = s.fault := by
  rcases s.fetchDecode_cases with ⟨_, e⟩ | ⟨_, w, _, ⟨i, _, e⟩ | ⟨c, _, e⟩⟩
  · exact .inl ⟨_, _, _, by simp [step, h, e]; rfl, by decide, by decide⟩
  · rw [step_of_run h e]
    rcases exec_cases i s.advance with ⟨k, a, he, hk⟩ | ⟨t, he, ht, hf⟩
    · rw [he, raise_eq, State.rewind_advance]
      exact .inl ⟨_, _, _, rfl, hk⟩
    · exact .inr ⟨i, t, e, he, he, by simpa [h] using ht, by simpa using hf⟩
  · exact .inl ⟨_, _, _, by simp [step, h, e]; rfl, by decide, by decide⟩

/-- An instruction is fetched only from inside memory (20_memory.md R44). -/
theorem State.pc_le_of_run {s : State} {i : Instr} (e : s.fetchDecode = .run i) : s.pc.toNat ≤ 4094 := by
  rcases s.fetchDecode_cases with ⟨_, e'⟩ | ⟨h, _⟩
  · rw [e] at e'; cases e'
  · exact h

/-- The fetch's advance does not wrap where an instruction can be fetched (10_state.md R18). -/
theorem State.toNat_advance_pc {s : State} (h : s.pc.toNat ≤ 4094) : s.advance.pc.toNat = s.pc.toNat + 2 := by
  simp [BitVec.toNat_add]; omega

/-- One step at the head of a run of the host's core. -/
theorem run_core_succ (n : Nat) {s u : State} (e : step s = .next u) :
    Host.Core.run Sys2Proof.core (n + 1) s = Host.Core.run Sys2Proof.core n u := by
  have g : ∀ (M : Host.Core) (s u : M.State), M.step s = .next u → M.run (n + 1) s = M.run n u := by
    intro M s u e; rw [Host.Core.run, e]
  exact g Sys2Proof.core s u e

end Sys2Proof.Machine
end

