-- ==== Sys2Proof/Tests/Slice0.lean ====
section
/-! SUPPORT. The model's own tests: ill-formed operands refused, one word of every instruction written out from 30_encoding.md
R65 and decoded, single steps whose expected results are the vectors of 95_test_vectors.md (cited as T<n>, E<n>, P<n>), and a
witness for the hypotheses of every obligation that has some. -/

namespace Sys2Proof.Tests

open Sys2Proof.Machine Sys2Proof.Claims

/-! ## WellFormed: each check of each format refuses an ill-formed operand -/

theorem test_wf_Z : Format.fits .Z {} = true ∧ Format.fits .Z { x := 1 } = false := by decide
theorem test_wf_A : Format.fits .A { nnn := 4095 } = true ∧ Format.fits .A { nnn := 4096 } = false ∧
    Format.fits .A { nnn := 1, x := 1 } = false := by decide
theorem test_wf_XK : Format.fits .XK { x := 15, kk := 255 } = true ∧ Format.fits .XK { x := 16 } = false ∧
    Format.fits .XK { kk := 256 } = false ∧ Format.fits .XK { y := 1 } = false := by decide
theorem test_wf_XY : Format.fits .XY { x := 15, y := 15 } = true ∧ Format.fits .XY { x := 16 } = false ∧
    Format.fits .XY { y := 16 } = false ∧ Format.fits .XY { n := 1 } = false := by decide
theorem test_wf_XYN : Format.fits .XYN { x := 15, y := 15, n := 15 } = true ∧ Format.fits .XYN { x := 16 } = false ∧
    Format.fits .XYN { y := 16 } = false ∧ Format.fits .XYN { n := 16 } = false ∧
    Format.fits .XYN { kk := 1 } = false := by decide
theorem test_wf_X : Format.fits .X { x := 15 } = true ∧ Format.fits .X { x := 16 } = false ∧
    Format.fits .X { nnn := 1 } = false := by decide

/-! ## Decoding: one word of every constructor, bit by bit from the patterns of R65 -/

theorem test_decode_sys : decode 0b0000000011100000 = .insn .cls ∧ decode 0b0000000011101110 = .insn .ret := by decide
theorem test_decode_address : decode 0b0001101010111100 = .insn (.jp 0xABC) ∧
    decode 0b0010001100000000 = .insn (.call 0x300) ∧ decode 0b1010000100100011 = .insn (.ldI 0x123) ∧
    decode 0b1011111111111111 = .insn (.jpV0 0xFFF) := by decide
theorem test_decode_immediate : decode 0b0011000101000010 = .insn (.seImm 1 0x42) ∧
    decode 0b0100000101000010 = .insn (.sneImm 1 0x42) ∧ decode 0b0110101001010101 = .insn (.ldImm 0xA 0x55) ∧
    decode 0b0111001000000010 = .insn (.addImm 2 0x02) ∧ decode 0b1100001100001111 = .insn (.rnd 3 0x0F) := by decide
theorem test_decode_skip_registers : decode 0b0101000100100000 = .insn (.seReg 1 2) ∧
    decode 0b1001000100100000 = .insn (.sneReg 1 2) := by decide
theorem test_decode_alu : decode 0b1000000100100000 = .insn (.ldReg 1 2) ∧
    decode 0b1000000100100001 = .insn (.orReg 1 2) ∧ decode 0b1000000100100010 = .insn (.andReg 1 2) ∧
    decode 0b1000000100100011 = .insn (.xorReg 1 2) ∧ decode 0b1000000100100100 = .insn (.addReg 1 2) ∧
    decode 0b1000000100100101 = .insn (.subReg 1 2) ∧ decode 0b1000000100100110 = .insn (.shr 1 2) ∧
    decode 0b1000000100100111 = .insn (.subnReg 1 2) ∧ decode 0b1000000100101110 = .insn (.shl 1 2) := by decide
theorem test_decode_draw : decode 0b1101111100010001 = .insn (.drw 0xF 1 1) := by decide
theorem test_decode_keys : decode 0b1110010110011110 = .insn (.skp 5) ∧
    decode 0b1110010110100001 = .insn (.sknp 5) := by decide
theorem test_decode_misc : decode 0b1111001100000111 = .insn (.ldVxDt 3) ∧
    decode 0b1111010000001010 = .insn (.ldVxK 4) ∧ decode 0b1111000000010101 = .insn (.ldDtVx 0) ∧
    decode 0b1111000100011000 = .insn (.ldStVx 1) ∧ decode 0b1111001000011110 = .insn (.addI 2) ∧
    decode 0b1111001100101001 = .insn (.ldF 3) ∧ decode 0b1111001100110011 = .insn (.ldB 3) ∧
    decode 0b1111001001010101 = .insn (.storeRegs 2) ∧ decode 0b1111001001100101 = .insn (.loadRegs 2) := by decide
/-- E9, T121, T122, R68. -/
theorem test_decode_illegal : decode 0x5001 = .illegal .seLowNibble ∧ decode 0x8128 = .illegal .aluLowNibble ∧
    decode 0xE59F = .illegal .keyLowByte ∧ decode 0xF5FF = .illegal .miscLowByte ∧ decode 0x9121 = .illegal .sneLowNibble ∧
    decode 0x00E1 = .illegal .sysSpace ∧ decode 0x00FE = .illegal .sysSpace ∧ decode 0x0123 = .illegal .sysSpace ∧
    decode 0x0000 = .illegal .sysSpace := by decide
theorem test_decode_bytes : decodeBytes [0x6A, 0x55, 0xFF] = .insn (.ldImm 0xA 0x55) ∧
    decodeBytes [0x6A] = .illegal .truncated := by decide
theorem test_decode_table_word : decodeTableWord 16 0xD125 = some (.drw 1 2 5) ∧ decodeTableWord 16 0x5001 = none := by
  decide

/-! ## Single steps -/

/-- The next state, if there is one. -/
def after (s : State) : Option State :=
  match step s with
  | .next t => some t
  | _ => none

/-- One STEP of the instruction word `w` placed at `pc`. -/
def run (w : Nat) (s : State) : Option State := after (s.withFetchWord 16 w)

/-- `V[x] = a` and `V[y] = b` after reset. -/
def regs (x : Nibble) (a : Byte) (y : Nibble) (b : Byte) : State := (State.reset.setV x a).setV y b

/-- The keys of a list pressed. -/
def pressing (ks : List Nat) : Keys := Vector.ofFn (fun k : Fin 16 => ks.contains k.val)

/-- The columns of row `Y` whose pixels are on. -/
def lit (fb : Framebuffer) (Y : Fin 32) : List Nat := ((List.finRange 64).filter fun X => fb.pixel Y X).map (·.val)

/-- `mem[0x300] = b` and `I = 0x300`. -/
def sprite (b : Byte) (s : State) : State := (s.setI 0x300).setMem (s.mem.setByte 0x300 b)

/-- T1. -/
theorem test_jp : (run 0x1ABC State.reset).map (·.pc) = some 0x0ABC := by decide
/-- T6. -/
theorem test_call : (run 0x2300 { State.reset with sp := 15 }).map (fun t => (t.pc, t.sp.val, t.stack[15])) =
    some (0x0300, 16, 0x0202) := by decide
/-- T5. -/
theorem test_call_overflow : (run 0x2300 { State.reset with sp := 16 }).map (fun t => (t.pc, t.faultStatus)) =
    some (0x0200, true, 2, 0x0200, 0x2300, 0, 16) := by rfl
/-- T7. -/
theorem test_ret : (run 0x00EE { State.reset with sp := 1, stack := State.reset.stack.set 0 0x0456 }).map
    (fun t => (t.pc, t.sp.val)) = some (0x0456, 0) := by decide
/-- T8. -/
theorem test_ret_underflow : (run 0x00EE State.reset).map (fun t => (t.pc, t.faultStatus)) =
    some (0x0200, true, 3, 0x0200, 0x00EE, 0, 0) := by rfl
/-- T9, T10. -/
theorem test_se_imm : (run 0x3142 (State.reset.setV 1 0x42)).map (·.pc) = some 0x0204 ∧
    (run 0x3142 (State.reset.setV 1 0x41)).map (·.pc) = some 0x0202 := by decide
/-- T11, T12. -/
theorem test_sne_imm : (run 0x4142 (State.reset.setV 1 0x42)).map (·.pc) = some 0x0202 ∧
    (run 0x4142 (State.reset.setV 1 0x41)).map (·.pc) = some 0x0204 := by decide
/-- T13, T14. -/
theorem test_se_reg : (run 0x5120 (regs 1 7 2 7)).map (·.pc) = some 0x0204 ∧
    (run 0x5120 (regs 1 7 2 8)).map (·.pc) = some 0x0202 := by decide
/-- T16, T17. -/
theorem test_sne_reg : (run 0x9120 (regs 1 7 2 8)).map (·.pc) = some 0x0204 ∧
    (run 0x9110 (State.reset.setV 1 9)).map (·.pc) = some 0x0202 := by decide
/-- T19: not masked to 12 bits. -/
theorem test_jp_v0 : (run 0xBFFF (State.reset.setV 0 0xFF)).map (·.pc) = some 0x10FE := by decide
/-- T59. -/
theorem test_ld_imm : (run 0x6A55 State.reset).map (fun t => (t.getV 0xA, t.pc)) = some (0x55, 0x0202) := by decide
/-- T60, T61. -/
theorem test_add_imm : (run 0x7202 (regs 2 0xFF 0xF 7)).map (fun t => (t.getV 2, t.getV 0xF)) = some (1, 7) ∧
    (run 0x7F01 (State.reset.setV 0xF 0xFF)).map (·.getV 0xF) = some 0 := by decide
/-- T44. -/
theorem test_ld_reg : (run 0x8120 (regs 1 0x11 2 0x22)).map (fun t => (t.getV 1, t.getV 2)) = some (0x22, 0x22) := by decide
/-- T45. -/
theorem test_or : (run 0x8121 ((regs 1 0xF0 2 0x0F).setV 0xF 9)).map (fun t => (t.getV 1, t.getV 0xF)) =
    some (0xFF, 9) := by decide
/-- T46. -/
theorem test_and : (run 0x8122 ((regs 1 0xF0 2 0x3C).setV 0xF 9)).map (fun t => (t.getV 1, t.getV 0xF)) =
    some (0x30, 9) := by decide
/-- T47. -/
theorem test_xor : (run 0x8123 ((regs 1 0xF0 2 0x3C).setV 0xF 9)).map (fun t => (t.getV 1, t.getV 0xF)) =
    some (0xCC, 9) := by decide
/-- T20, T22. -/
theorem test_add_reg : (run 0x8124 (regs 1 0xFA 2 0x0A)).map (fun t => (t.getV 1, t.getV 0xF)) = some (0x04, 1) ∧
    (run 0x8124 (regs 1 0x80 2 0x7F)).map (fun t => (t.getV 1, t.getV 0xF)) = some (0xFF, 0) := by decide
/-- T49, T54: VF as destination and as operand. -/
theorem test_add_reg_alias : (run 0x8F24 (regs 0xF 0x10 2 0x20)).map (·.getV 0xF) = some 0 ∧
    (run 0x81F4 (regs 1 0xFF 0xF 1)).map (fun t => (t.getV 1, t.getV 0xF)) = some (0, 1) := by decide
/-- T26, T27. -/
theorem test_sub : (run 0x8125 (regs 1 0x10 2 0x20)).map (fun t => (t.getV 1, t.getV 0xF)) = some (0xF0, 0) ∧
    (run 0x8125 (regs 1 0x33 2 0x33)).map (fun t => (t.getV 1, t.getV 0xF)) = some (0, 0) := by decide
/-- T50. -/
theorem test_sub_alias : (run 0x8F25 (regs 0xF 5 2 3)).map (·.getV 0xF) = some 1 := by decide
/-- T34, T52. -/
theorem test_shr : (run 0x8126 (regs 1 0x05 2 0x99)).map (fun t => (t.getV 1, t.getV 0xF, t.getV 2)) =
    some (0x02, 1, 0x99) ∧ (run 0x8F06 (State.reset.setV 0xF 2)).map (·.getV 0xF) = some 0 := by decide
/-- T31, T33. -/
theorem test_subn : (run 0x8127 (regs 1 0x20 2 0x10)).map (fun t => (t.getV 1, t.getV 0xF)) = some (0xF0, 0) ∧
    (run 0x8127 (regs 1 0xFF 2 0x00)).map (fun t => (t.getV 1, t.getV 0xF)) = some (0x01, 0) := by decide
/-- T40, T53. -/
theorem test_shl : (run 0x812E (regs 1 0x81 2 0x99)).map (fun t => (t.getV 1, t.getV 0xF, t.getV 2)) =
    some (0x02, 1, 0x99) ∧ (run 0x8F0E (State.reset.setV 0xF 0x81)).map (·.getV 0xF) = some 1 := by decide
/-- T64: whatever the draw. -/
theorem test_rnd_masked : (run 0xC500 (State.reset.setV 5 7)).map (·.getV 5) = some 0 := by
  have h : ∀ b : Byte, 0 &&& b = 0 := fun b => BitVec.zero_and
  exact congrArg some (h (Config.rnd 0))
/-- T65. -/
theorem test_ld_i : (run 0xA123 State.reset).map (·.i) = some 0x0123 := by decide
/-- T71, T72. -/
theorem test_add_i : (run 0xF21E ((regs 2 1 0xF 9).setI 0x0FFF)).map (fun t => (t.i, t.getV 0xF)) = some (0x1000, 9) ∧
    (run 0xF21E ((State.reset.setV 2 1).setI 0xFFFF)).map (·.i) = some 0 := by decide
/-- T68, T69. -/
theorem test_ld_f : (run 0xF329 (State.reset.setV 3 0x0F)).map (·.i) = some 0x009B ∧
    (run 0xF329 (State.reset.setV 3 0x1A)).map (·.i) = some 0x0082 := by decide
/-- T79. -/
theorem test_ld_b : (run 0xF333 ((State.reset.setV 3 234).setI 0x0FFD)).map
    (fun t => (t.mem.bytesFrom 0xFFD 3, t.i, t.pc)) = some ([2, 3, 4], 0x0FFD, 0x0202) := by decide
/-- T81. -/
theorem test_ld_b_fault : (run 0xF333 ((State.reset.setV 3 234).setI 0xFFFF)).map (·.faultStatus) =
    some (true, 4, 0x0200, 0xF333, 0xFFFF, 0) := by decide
/-- T82. -/
theorem test_store : (run 0xF255 (((regs 0 0xA 1 0xB).setV 2 0xC).setV 3 0xD |>.setI 0x300)).map
    (fun t => (t.mem.bytesFrom 0x300 4, t.i)) = some ([0xA, 0xB, 0xC, 0], 0x300) := by decide
/-- T84. -/
theorem test_store_fault : (run 0xFF55 (State.reset.setI 0x0FF1)).map (·.faultStatus) =
    some (true, 4, 0x0200, 0xFF55, 0x1000, 0) := by decide
/-- T87. -/
theorem test_load_font : (run 0xFF65 (State.reset.setI 0x050)).map (·.v.toList) =
    some [0xF0, 0x90, 0x90, 0x90, 0xF0, 0x20, 0x60, 0x20, 0x20, 0x70, 0xF0, 0x10, 0xF0, 0x80, 0xF0, 0xF0] := by decide
/-- T88. -/
theorem test_load_fault : (run 0xF265 ((State.reset.setV 0 7).setI 0x0FFE)).map (fun t => (t.faultStatus, t.getV 0)) =
    some ((true, 4, 0x0200, 0xF265, 0x1000, 0), 7) := by rfl
/-- T89. -/
theorem test_cls : (run 0x00E0 ((State.reset.setV 0xF 1).setFb (State.reset.fb.flip 3 4))).map
    (fun t => (lit t.fb 3, t.getV 0xF, t.displayChanged)) = some ([], 1, false) := by decide
/-- T94, the font glyph 0: its rows 0, 1 and 5. -/
theorem test_drw_glyph : (run 0xD015 (State.reset.setI 0x050)).map
    (fun t => (lit t.fb 0, lit t.fb 1, lit t.fb 5, t.displayChanged)) = some ([0, 1, 2, 3], [0, 3], [], true) := by decide
/-- E6: a wrap in the row, then the erase with a collision. -/
theorem test_drw_twice : (run 0xD011 (sprite 0xFF (State.reset.setV 0 0x3C))).map (fun t => (lit t.fb 0, t.getV 0xF)) =
    some ([0, 1, 2, 3, 60, 61, 62, 63], 0) ∧
    ((run 0xD011 (sprite 0xFF (State.reset.setV 0 0x3C))).bind (fun t => run 0xD011 t)).map
      (fun t => (lit t.fb 0, t.getV 0xF)) = some ([], 1) := by decide
/-- T101, T102. -/
theorem test_skp : (run 0xE59E ((State.reset.setV 5 0xA).setKeys (pressing [10]))).map (·.pc) = some 0x0204 ∧
    (run 0xE59E (State.reset.setV 5 0xA)).map (·.pc) = some 0x0202 := by decide
/-- T105. -/
theorem test_skp_fault : (run 0xE59E (State.reset.setV 5 0x10)).map (·.faultStatus) =
    some (true, 5, 0x0200, 0xE59E, 0x10, 0) := by decide
/-- T103, T104. -/
theorem test_sknp : (run 0xE5A1 ((State.reset.setV 5 0xA).setKeys (pressing [10]))).map (·.pc) = some 0x0202 ∧
    (run 0xE5A1 (State.reset.setV 5 0xA)).map (·.pc) = some 0x0204 := by decide
/-- T106. -/
theorem test_sknp_fault : (run 0xE5A1 ((State.reset.setV 5 0x1A).setKeys (pressing [10]))).map (·.faultStatus) =
    some (true, 5, 0x0200, 0xE5A1, 0x1A, 0) := by decide
/-- T107. -/
theorem test_ld_vx_dt : (run 0xF307 (State.reset.setDt 0x21)).map (·.getV 3) = some 0x21 := by decide
/-- T110, T111. -/
theorem test_ld_vx_k : (run 0xF40A State.reset) = some (State.reset.withFetchWord 16 0xF40A) ∧
    (run 0xF40A (State.reset.setKeys (pressing [5, 9]))).map (fun t => (t.getV 4, t.pc)) = some (5, 0x0202) := by decide
/-- T108. -/
theorem test_ld_dt_vx : (run 0xF015 (State.reset.setV 0 0x22)).map (fun t => (t.dt, t.st)) = some (0x22, 0) := by decide
/-- T109. -/
theorem test_ld_st_vx : (run 0xF118 (State.reset.setV 1 3)).map (fun t => (t.st, t.dt)) = some (3, 0) := by decide

/-! ## Fetch, frames, driver -/

/-- T117: the last fetchable address. -/
theorem test_fetch_last : (run 0x6A55 (State.reset.setPc 0x0FFE)).map (fun t => (t.getV 0xA, t.pc)) =
    some (0x55, 0x1000) := by decide
/-- T118. -/
theorem test_fetch_fault : (after (State.reset.setPc 0x0FFF)).map (·.faultStatus) =
    some (true, 4, 0x0FFF, 0, 0x1000, 0) := by decide
/-- T121. -/
theorem test_decode_fault : (run 0x8128 State.reset).map (fun t => (t.faultStatus, t.pc)) =
    some ((true, 1, 0x0200, 0x8128, 0, 0), 0x0200) := by rfl
/-- The first step from reset with nothing loaded (log 18): the word 0x0000. -/
theorem test_step_from_bare_reset : (after State.reset).map (·.faultStatus) = some (true, 1, 0x0200, 0, 0, 0) := by decide
theorem test_with_fetch_word : (State.reset.withFetchWord 16 0x6A55).fetchDecode = .run (.ldImm 0xA 0x55) ∧
    (State.reset.withFetchWord 16 0x6A55).mem = [(0x200, 0x6A), (0x201, 0x55)] := by decide
/-- T114. -/
theorem test_frame_zero : frame 0 (((State.reset.setDt 1).setSt 2).setDisplayChanged true) =
    .next ((State.reset.setDt 0).setSt 1) := by rfl
/-- T123, T124. -/
theorem test_load : (loadMove 0x0FFF [1, 2] State.reset).faultStatus = (true, 6, 0x0200, 0, 0, 0) ∧
    loadMove 0x1000 [] State.reset = State.reset := by decide
/-- A write of what an unlisted address reads as removes the cell: the canonical form. -/
theorem test_memory_canonical : (State.reset.mem.setByte 0x50 0x11).setByte 0x50 0xF0 = [] ∧
    (State.reset.mem.setByte 0x301 2).setByte 0x300 1 = [(0x300, 1), (0x301, 2)] := by decide

/-! ## Witnesses: a state and operands that meet the hypotheses of each obligation, clause by clause, at the boundaries -/

/-- A halted core. -/
def halted0 : State := State.reset.latchFault .decodeError 0 0

/-- `w` at 0x0200 and nothing else, as a program loaded after RESET. -/
def prog (w : Nat) : State := State.reset.withFetchWord 16 w

/-- `CALL 0x300` at 0x0200 and `RET` at 0x300 (E4). -/
def callRet (sp : Fin 17) : State :=
  { (prog 0x2300).setMem ((prog 0x2300).mem.setBytes 0x300 [0x00, 0xEE]) with sp := sp }

theorem witness_CallPushesReturnAddress : (15 : Fin 17).val < 16 ∧ (16 : Fin 17).val = 16 ∧
    ({ State.reset with sp := 16 } : State).halted = false := by decide
theorem witness_RetPopsReturnAddress : 0 < (1 : Fin 17).val ∧ State.reset.sp.val = 0 ∧ State.reset.halted = false := by
  decide
/-- Each half of the statement: a step that completes (here a CALL) and a step that faults. -/
theorem witness_StepLeavesProgramCounterPerTable :
    ((prog 0x2300).halted = false ∧ (run 0x2300 State.reset).map (·.halted) = some false) ∧
    ((prog 0x5001).halted = false ∧ (run 0x5001 State.reset).map (·.halted) = some true) := by decide
theorem witness_CallThenRetReturns : (callRet 15).halted = false ∧ (callRet 15).sp.val < 16 ∧
    (callRet 15).fetchDecode = .run (.call 0x300) ∧
    (after (callRet 15)).map (·.fetchDecode) = some (.run .ret) := by decide
theorem witness_SelfJumpIsAFixedPoint : (prog 0x1200).halted = false ∧ (prog 0x1200).finished :=
  ⟨rfl, 0x200, by decide, by decide⟩
/-- The clauses of `WritesResultAndFlag` for a destination that is not VF, and for VF itself. -/
theorem witness_ArithmeticWrapsAndWritesFlag : (1 : Nibble) ≠ 0xF ∧ ¬ ((0xF : Nibble) ≠ 0xF) ∧ (2 : Nibble) ≠ 1 := by decide
theorem witness_OnlyNamedRegistersAreWritten :
    exec (.loadRegs 14) State.reset = .next (State.reset.setRegs (State.reset.v.writeFrom 0 (List.replicate 15 0))) ∧
    ¬ mayWrite (.loadRegs 14) 15 ∧ mayWrite (.loadRegs 14) 14 := ⟨rfl, by simp [mayWrite], by simp [mayWrite]⟩
theorem witness_BcdStoresThreeDigits : (State.reset.setI 4093).i.toNat + 2 ≤ 4095 := by decide
theorem witness_StoreRegistersFromV0 : (State.reset.setI 4080).i.toNat + (15 : Nibble).toNat ≤ 4095 ∧
    (State.reset.setI 4095).i.toNat + (0 : Nibble).toNat ≤ 4095 := by decide
theorem witness_LoadRegistersFromV0 : (State.reset.setI 4081).i.toNat + (14 : Nibble).toNat ≤ 4095 ∧
    (14 : Nibble).toNat < (15 : Nibble).toNat := by decide
theorem witness_TransferPastMemoryFaults : State.reset.halted = false ∧ 4095 < (State.reset.setI 4094).i.toNat + 2 ∧
    4095 < (State.reset.setI 4081).i.toNat + (15 : Nibble).toNat ∧
    (0 < (1 : Nibble).toNat ∧ 4096 < (State.reset.setI 4096).i.toNat + (1 : Nibble).toNat) := by decide
/-- A store to the last byte of memory, and the addresses beside it. -/
theorem witness_OnlyStoredBytesChange :
    exec (.storeRegs 0) ((State.reset.setV 0 1).setI 4095) =
      .next (((State.reset.setV 0 1).setI 4095).setMem [(4095, 1)]) ∧
    4094 < (State.reset.setI 4095).effectiveAddr 0 ∧
    (State.reset.setI 4095).effectiveAddr (storedBytes (.storeRegs 0)) ≤ 4096 := ⟨rfl, by decide, by decide⟩
theorem witness_CanonicalMemoryIsItsBytes : let m : Memory := [(0x300, 1), (0x301, 2)]
    let m' : Memory := (Memory.setByte [] 0x301 2).setByte 0x300 1
    m.wf ∧ m'.wf ∧ ∀ a, a < 4096 → m.byteAt a = m'.byteAt a := ⟨by decide, by decide, fun _ _ => rfl⟩
/-- The store of P6, seen by `exec` at the address after itself. -/
theorem witness_StoreIsSeenByNextFetch : let s := ((regs 0 0x12 1 0x08).setI 0x208).setPc 0x208
    s.halted = false ∧ (∃ t, exec (.storeRegs 1) s = .next t ∧ t.halted = false ∧
      t.pc.toNat = s.effectiveAddr (0 : Nibble).toNat) ∧
    (1 : Nibble).toNat = (0 : Nibble).toNat + 1 ∧ (1 : Nibble).toNat ≤ (1 : Nibble).toNat :=
  ⟨by decide, ⟨_, rfl, by decide, by decide⟩, by decide, by decide⟩
/-- No rows at any `I`, and the last byte of a sprite at 4095 (T96, T98). -/
theorem witness_DrwInvertsExactlyTheSprite : (0 : Nibble).toNat = 0 ∧
    (State.reset.setI 4094).i.toNat + (2 : Nibble).toNat ≤ 4096 := by decide
/-- A pixel under the sprite (T90) and one that is not, and a sprite over a clear display. -/
theorem witness_DrwInvertsExactlyTheSprite_pixels : SpriteCovers (sprite 0x80 State.reset) 0 1 1 0 0 ∧
    ¬ SpriteCovers (sprite 0x80 State.reset) 0 1 1 1 0 ∧ (∀ Y X, SpriteCovers (sprite 0x80 State.reset) 0 1 1 Y X →
      (sprite 0x80 State.reset).fb.pixel Y X = false) := by
  refine ⟨⟨0, 0, by decide, by decide, by decide, by decide, by decide⟩, ?_, fun Y X _ => ?_⟩
  · rintro ⟨r, c, hr, -, hy, -, -⟩
    have h0 : r = 0 := by change r < 1 at hr; omega
    subst h0
    exact absurd hy (by decide)
  · simp [sprite, Framebuffer.pixel, State.reset]
/-- A sprite bit over a pixel that is on (T95). -/
theorem witness_DrwInvertsExactlyTheSprite_collision : let s := (sprite 0x80 State.reset).setFb (State.reset.fb.flip 0 0)
    SpriteCovers s 0 1 1 0 0 ∧ s.fb.pixel 0 0 = true :=
  ⟨⟨0, 0, by decide, by decide, by decide, by decide, by decide⟩, by decide⟩
theorem witness_DrawingTwiceRestoresTheDisplay : let s := sprite 0x80 State.reset
    s.i.toNat + (1 : Nibble).toNat ≤ 4096 ∧
    ∃ t, exec (.drw 0xF 1 1) s = .next t ∧ t.getV 0xF = s.getV 0xF ∧ t.getV 1 = s.getV 1 :=
  ⟨by decide, _, rfl, by decide, by decide⟩
theorem witness_DisplayChangedOnlyByDrw : (prog 0xD000).halted = false ∧
    ∃ t, frame 1 (prog 0xD000) = .next t ∧ t.displayChanged = true := ⟨rfl, _, rfl, by decide⟩
theorem witness_KeySkipsReadTheSnapshot : ((State.reset.setV 5 15).getV 5).toNat < 16 ∧
    15 < ((State.reset.setV 5 16).getV 5).toNat ∧ (State.reset.setV 5 16).halted = false := by decide
theorem witness_KeyWaitRepeatsUntilAKey : (∀ k : Fin 16, (prog 0xF40A).keys[k] = false) ∧
    (prog 0xF40A).halted = false ∧ (prog 0xF40A).fetchDecode = .run (.ldVxK 4) ∧
    (pressing [5, 9])[(5 : Fin 16)] = true ∧ (∀ j : Fin 16, j < 5 → (pressing [5, 9])[j] = false) ∧
    (pressing [15])[(15 : Fin 16)] = true ∧ (∀ j : Fin 16, j < 15 → (pressing [15])[j] = false) := by decide
theorem witness_BlockedKeyWaitUsesUpTheFrame : (prog 0xF40A).halted = false ∧
    (prog 0xF40A).fetchDecode = .run (.ldVxK 4) ∧ ∀ k : Fin 16, (prog 0xF40A).keys[k] = false := by decide
theorem witness_FrameIsStepsThenTick : halted0.halted = true ∧ State.reset.halted = false := by decide
/-- The four outcomes of STEP: halted, `pc` 4095, an illegal word and an instruction at 4094. -/
theorem witness_StepRunsTheDecodedInstruction : halted0.halted = true ∧ State.reset.halted = false ∧
    4094 < (0x0FFF : Word).toNat ∧ (0x0FFE : Word).toNat ≤ 4094 ∧
    decode ((0x50 : Byte) ++ (0x01 : Byte)) = .illegal .seLowNibble ∧
    decode ((0x6A : Byte) ++ (0x55 : Byte)) = .insn (.ldImm 0xA 0x55) := by decide
theorem witness_FaultsArePrecise : (prog 0x00EE).halted = false ∧
    ∃ t, step (prog 0x00EE) = .next t ∧ t.halted = true := ⟨rfl, _, rfl, by decide⟩
/-- A running core, each limit of R174 just exceeded: the fetch, the word, the depth both ways, the key, the transfer. -/
theorem witness_StepFaultsExactlyPastALimit :
    let exceeding : List State := [State.reset.setPc 4095, prog 0x5001, { prog 0x2300 with sp := 16 }, prog 0x00EE,
      (prog 0xE59E).setV 5 16, (prog 0xE5A1).setV 5 16, (prog 0xF333).setI 4094, (prog 0xF155).setI 4095,
      (prog 0xF165).setI 4095, (prog 0xD001).setI 4096]
    ∀ s ∈ exceeding, s.halted = false ∧ (after s).map (·.halted) = some true := by decide
/-- A running core, the same limits just kept. -/
theorem witness_StepFaultsExactlyPastALimit_kept :
    let keeping : List State := [(State.reset.setPc 4094).withFetchWord 16 0x6A55, prog 0x5120,
      { prog 0x2300 with sp := 15 }, { prog 0x00EE with sp := 1 }, (prog 0xE59E).setV 5 15, (prog 0xE5A1).setV 5 15,
      (prog 0xF333).setI 4093, (prog 0xF155).setI 4094, (prog 0xF165).setI 4094, (prog 0xD001).setI 4095,
      (prog 0xD000).setI 4096]
    ∀ s ∈ keeping, s.halted = false ∧ (after s).map (·.halted) = some false := by decide
/-- Each disjunct of `BreaksALimit` has a state that meets it. -/
theorem witness_BreaksALimit : BreaksALimit (State.reset.setPc 4095) ∧ BreaksALimit (prog 0x5001) ∧
    BreaksALimit { prog 0x2300 with sp := 16 } ∧ BreaksALimit (prog 0x00EE) ∧ BreaksALimit ((prog 0xE59E).setV 5 16) ∧
    BreaksALimit ((prog 0xE5A1).setV 5 16) ∧ BreaksALimit ((prog 0xF333).setI 4094) :=
  ⟨.inl (by decide), .inr (.inl ⟨0x5001, .seLowNibble, by decide, by decide⟩),
    .inr (.inr ⟨.call 0x300, by decide, .inl ⟨⟨_, rfl⟩, by decide⟩⟩),
    .inr (.inr ⟨.ret, by decide, .inr (.inl ⟨rfl, by decide⟩)⟩),
    .inr (.inr ⟨.skp 5, by decide, .inr (.inr (.inl ⟨5, .inl rfl, by decide⟩))⟩),
    .inr (.inr ⟨.sknp 5, by decide, .inr (.inr (.inl ⟨5, .inr rfl, by decide⟩))⟩),
    .inr (.inr ⟨.ldB 3, by decide, .inr (.inr (.inr (by decide)))⟩)⟩
theorem witness_HaltedCoreIsFrozenUntilReset : halted0.halted = true ∧ Move.frame 3 ≠ Move.reset := by decide
theorem witness_ElementsChangeOnlyByTheirWriters : State.reset.halted = false ∧
    exec (.ldI 0x123) State.reset = .next (State.reset.setI 0x123) ∧ (State.reset.setI 0x123).i ≠ State.reset.i :=
  ⟨rfl, rfl, by decide⟩
/-- A state with a live return address and a byte of memory that meets the invariant. -/
theorem witness_StepKeepsTheInvariant : let s : State := { prog 0x00EE with sp := 1, stack := State.reset.stack.set 0 0x1000 }
    s.Inv ∧ ∃ t, step s = .next t := by
  refine ⟨⟨by decide, ⟨fun _ => rfl, fun h => absurd h (by decide)⟩, by decide, fun k hk h => ?_⟩, _, rfl⟩
  have h0 : k = 0 := by change k < 1 at h; omega
  subst h0
  exact show 2 ≤ (0x1000 : Word).toNat ∧ (0x1000 : Word).toNat ≤ 0x1000 by decide
theorem witness_EveryMoveKeepsTheInvariant : (prog 0x6A55).Inv ∧ ∃ t, Move.run (.load 0xFFF [1]) (prog 0x6A55) = .next t :=
  ⟨⟨by decide, ⟨fun _ => rfl, fun h => absurd h (by decide)⟩, by decide, fun _ _ h => absurd h (Nat.not_lt_zero _)⟩,
    _, rfl⟩
theorem witness_LoadAndSetKeys : State.reset.halted = false ∧ 0xFFF + ([1] : List Byte).length ≤ 4096 ∧
    4096 < 0xFFF + ([1, 2] : List Byte).length := by decide
theorem witness_EncodeOfDecode : decode 0xFF65 = .insn (.loadRegs 0xF) := by decide
theorem witness_OpcodeMapAgreesWithDecoder : (⟨"DRW Vx,Vy,n", .XYN, 0xF000, 0xD000⟩ : OpcodeRow) ∈ opcodeMap := by decide
theorem witness_TimersReachZeroAndStay : 255 ≤ 255 ∧ (State.reset.setDt 0xFF).dt.toNat = 255 := by decide

end Sys2Proof.Tests
end

section
/-! SUPPORT. Proofs of the statements about control flow (40_control_flow.md): jumps and compare-and-skip. -/

namespace Sys2Proof.Machine

/-! ### The meaning of each instruction, once -/

theorem exec_jp (nnn : Addr) (s : State) : exec (.jp nnn) s = .next (s.setPc (zext16 nnn)) := rfl

theorem exec_jpV0 (nnn : Addr) (s : State) :
    exec (.jpV0 nnn) s = .next (s.setPc (zext16 nnn + zext16 (s.getV 0))) := rfl

theorem exec_seImm (x : Nibble) (kk : Byte) (s : State) :
    exec (.seImm x kk) s = .next (s.skipIf (s.getV x == kk)) := rfl

theorem exec_sneImm (x : Nibble) (kk : Byte) (s : State) :
    exec (.sneImm x kk) s = .next (s.skipIf (s.getV x != kk)) := rfl

theorem exec_seReg (x y : Nibble) (s : State) :
    exec (.seReg x y) s = .next (s.skipIf (s.getV x == s.getV y)) := rfl

theorem exec_sneReg (x y : Nibble) (s : State) :
    exec (.sneReg x y) s = .next (s.skipIf (s.getV x != s.getV y)) := rfl

/-! ### Jump target and skip -/

/-- A 12-bit address plus a byte is at most 4095 + 255, so the 16-bit sum of R88 never wraps. -/
theorem toNat_zext16_add_zext16 (nnn : Addr) (b : Byte) :
    (zext16 nnn + zext16 b).toNat = nnn.toNat + b.toNat := by
  have hn : nnn.toNat < 4096 := nnn.isLt
  have hb : b.toNat < 256 := b.isLt
  rw [BitVec.toNat_add, BitVec.toNat_setWidth, BitVec.toNat_setWidth]
  omega

/-- The skip of SE: over one more instruction when the operands are equal. -/
theorem State.skipIf_beq (s : State) (a b : Byte) :
    s.skipIf (a == b) = { s with pc := if a = b then s.pc + 2 else s.pc } := by
  rw [State.skipIf_eq, State.setPc]
  simp only [beq_iff_eq]

/-- The skip of SNE: over one more instruction unless the operands are equal. -/
theorem State.skipIf_bne (s : State) (a b : Byte) :
    s.skipIf (a != b) = { s with pc := if a = b then s.pc else s.pc + 2 } := by
  rw [State.skipIf_eq, State.setPc]
  simp only [bne_iff_ne, ite_not]

/-! ### The obligations -/

/-- Settles O1: both jumps are one write of `pc`, and the sum of `JP V0,nnn` fits in 16 bits. -/
theorem jumpsSetProgramCounter : Obligations.JumpsSetProgramCounter := by
  intro nnn s
  refine ⟨exec_jp nnn s, _, exec_jpV0 nnn s, ?_, rfl⟩
  exact toNat_zext16_add_zext16 nnn (s.getV 0)

/-- Settles O4: each of the four is one conditional skip, on equality for SE and on its negation for SNE. -/
theorem comparesSkipOneInstruction : Obligations.ComparesSkipOneInstruction := by
  intro x y kk s
  refine ⟨?seImm, ?sneImm, ?seReg, ?sneReg⟩
  case seImm => rw [exec_seImm, State.skipIf_beq]
  case sneImm => rw [exec_sneImm, State.skipIf_bne]
  case seReg => rw [exec_seReg, State.skipIf_beq]
  case sneReg => rw [exec_sneReg, State.skipIf_bne]

end Sys2Proof.Machine
end

section
/-! SUPPORT. Proofs of the statements about loads, immediate addition and logic (41_alu.md): the instructions that write one
register and no flag. -/

namespace Sys2Proof.Machine

open Sys2Proof.Claims

/-! ### The meaning of each instruction, once -/

theorem exec_ldImm (x : Nibble) (kk : Byte) (s : State) : exec (.ldImm x kk) s = .next (s.setV x kk) := rfl

theorem exec_addImm (x : Nibble) (kk : Byte) (s : State) :
    exec (.addImm x kk) s = .next (s.setV x (s.getV x + kk)) := rfl

theorem exec_ldReg (x y : Nibble) (s : State) : exec (.ldReg x y) s = .next (s.setV x (s.getV y)) := rfl

theorem exec_orReg (x y : Nibble) (s : State) :
    exec (.orReg x y) s = .next (s.setV x (s.getV x ||| s.getV y)) := rfl

theorem exec_andReg (x y : Nibble) (s : State) :
    exec (.andReg x y) s = .next (s.setV x (s.getV x &&& s.getV y)) := rfl

theorem exec_xorReg (x y : Nibble) (s : State) :
    exec (.xorReg x y) s = .next (s.setV x (s.getV x ^^^ s.getV y)) := rfl

/-! ### One register written -/

/-- An instruction whose whole effect is one register write satisfies `WritesRegister` for what holds of the byte written. -/
theorem writesRegister_of_exec_eq_setV {i : Instr} {s : State} {x : Nibble} {b : Byte} {P : Byte → Prop}
    (he : exec i s = .next (s.setV x b)) (hP : P b) : WritesRegister i s x P := by
  have hb : (s.setV x b).getV x = b := s.getV_setV_same x b
  refine ⟨s.setV x b, he, ?_, ?_⟩
  · rwa [hb]
  · rw [hb]

/-! ### The obligations -/

/-- Settles O8: each load is one register write, of the immediate or of the other register's byte. -/
theorem loadsWriteOneRegister : Obligations.LoadsWriteOneRegister := by
  intro x y kk s
  exact ⟨exec_ldImm x kk s, exec_ldReg x y s⟩

/-- Settles O9: the byte written is the sum of two bytes, which `BitVec` addition takes mod 256. -/
theorem addImmediateWrapsWithoutFlag : Obligations.AddImmediateWrapsWithoutFlag := by
  intro x kk s
  exact writesRegister_of_exec_eq_setV (exec_addImm x kk s) (BitVec.toNat_add (s.getV x) kk)

/-- Settles O10: each of the three writes the bitwise combination of the two registers. -/
theorem logicWorksBitwiseWithoutFlag : Obligations.LogicWorksBitwiseWithoutFlag := by
  intro x y s
  refine ⟨?or, ?and, ?xor⟩
  case or => exact writesRegister_of_exec_eq_setV (exec_orReg x y s) fun _ => BitVec.getLsbD_or
  case and => exact writesRegister_of_exec_eq_setV (exec_andReg x y s) fun _ => BitVec.getLsbD_and
  case xor => exact writesRegister_of_exec_eq_setV (exec_xorReg x y s) fun _ => BitVec.getLsbD_xor

end Sys2Proof.Machine
end

section
/-! SUPPORT. Proofs of the statements about the index register (42_index_memory.md): the instructions that write `I` and
nothing else. -/

namespace Sys2Proof.Machine

/-! ### The meaning of each instruction, once -/

theorem exec_ldI (nnn : Addr) (s : State) : exec (.ldI nnn) s = .next (s.setI (zext16 nnn)) := rfl

theorem exec_addI (x : Nibble) (s : State) :
    exec (.addI x) s = .next (s.setI (s.i + zext16 (s.getV x))) := rfl

theorem exec_ldF (x : Nibble) (s : State) : exec (.ldF x) s = .next (s.setI (glyphAddr (s.getV x))) := rfl

/-! ### The addresses written -/

/-- Widening to 16 bits keeps the value of anything that is no wider. -/
theorem toNat_zext16 {w : Nat} (hw : w ≤ 16) (v : BitVec w) : (zext16 v).toNat = v.toNat :=
  BitVec.toNat_setWidth_of_le hw

/-- `I` plus a zero-extended byte is the sum mod 65536 (R107). -/
theorem toNat_add_zext16 (a : Word) (b : Byte) : (a + zext16 b).toNat = (a.toNat + b.toNat) % 65536 := by
  rw [BitVec.toNat_add, toNat_zext16 (by decide)]

/-- The last glyph starts at 0x50 + 5 * 15, so the address of R108 never wraps. -/
theorem toNat_glyphAddr (v : Byte) : (glyphAddr v).toNat = 0x50 + 5 * (v.toNat % 16) := by
  have hd : (v.extractLsb' 0 4).toNat = v.toNat % 16 := BitVec.extractLsb'_toNat ..
  rw [glyphAddr, BitVec.toNat_ofNat, hd, Config.fontBase, Config.fontGlyphBytes]
  omega

/-! ### The obligation -/

/-- Settles O15: each of the three is one write of `I`, so what is left is the value of the address written. -/
theorem indexPointerWrites : Obligations.IndexPointerWrites := by
  intro nnn x s
  refine ⟨⟨_, exec_ldI nnn s, ?ldI, rfl⟩, ⟨_, exec_addI x s, ?addI, rfl⟩, ⟨_, exec_ldF x s, ?ldF, rfl⟩⟩
  case ldI => exact toNat_zext16 (by decide) nnn
  case addI => exact toNat_add_zext16 s.i (s.getV x)
  case ldF => exact toNat_glyphAddr (s.getV x)

end Sys2Proof.Machine
end

section
/-! SUPPORT. Proofs of the statements about the display (43_display.md). -/

namespace Sys2Proof.Machine

/-! ### The meaning of the instruction, once -/

theorem exec_cls (s : State) : exec .cls s = .next (s.setFb Framebuffer.clear) := rfl

/-! ### The obligation -/

/-- Settles O23: CLS is one write of the framebuffer, and the framebuffer written has every pixel off. -/
theorem clsTurnsEveryPixelOff : Obligations.ClsTurnsEveryPixelOff := by
  intro s
  have hoff : ∀ Y X, (s.setFb Framebuffer.clear).fb.pixel Y X = false := by
    intro Y X
    rw [State.setFb_fb, Framebuffer.pixel_clear]
  exact ⟨s.setFb Framebuffer.clear, exec_cls s, hoff, rfl⟩

end Sys2Proof.Machine
end

section
/-! SUPPORT. Proofs of the statements about keys and timers (44_keys_timers.md): the key wait and the moves between a
register and a timer. -/

namespace Sys2Proof.Machine

/-! ### The meaning of each instruction, once -/

theorem exec_ldVxDt (x : Nibble) (s : State) : exec (.ldVxDt x) s = .next (s.setV x s.dt) := rfl

theorem exec_ldDtVx (x : Nibble) (s : State) : exec (.ldDtVx x) s = .next (s.setDt (s.getV x)) := rfl

theorem exec_ldStVx (x : Nibble) (s : State) : exec (.ldStVx x) s = .next (s.setSt (s.getV x)) := rfl

/-- The key wait with no key pressed goes back to its own address (R126). -/
theorem exec_ldVxK_of_none (x : Nibble) {s : State} (h : s.keys.lowestPressed = none) :
    exec (.ldVxK x) s = .next s.rewind := by
  simp only [exec, execLdVxK, h]

/-- The key wait with a key pressed writes the number of the key found (R126). -/
theorem exec_ldVxK_of_some (x : Nibble) {s : State} {k : Fin 16} (h : s.keys.lowestPressed = some k) :
    exec (.ldVxK x) s = .next (s.setV x (BitVec.ofNat 8 k.val)) := by
  simp only [exec, execLdVxK, h]

/-! ### The key found, and the blocked step -/

/-- A pressed key below which none is pressed is the key found: the converse of `Keys.lowestPressed_spec`. -/
theorem Keys.lowestPressed_eq_some {keys : Keys} {k : Fin 16} (hk : keys[k] = true)
    (hlow : ∀ j : Fin 16, j < k → keys[j] = false) : keys.lowestPressed = some k := by
  rw [Keys.lowestPressed, ← Fin.find?_eq_find?_finRange]
  exact Fin.find?_eq_some_iff.2 ⟨hk, hlow⟩

/-- STEP blocked on the key wait changes nothing: the rewind undoes the fetch's advance, which left the keys alone. -/
theorem step_ldVxK_blocked {x : Nibble} {s : State} (hrun : s.halted = false)
    (hfetch : s.fetchDecode = .run (.ldVxK x)) (hnone : s.keys.lowestPressed = none) : step s = .next s := by
  have hkeys : s.advance.keys.lowestPressed = none := by rwa [State.advance_keys]
  rw [step_of_run hrun hfetch, exec_ldVxK_of_none x hkeys, State.rewind_advance]

/-! ### The obligations -/

/-- Settles O28: no key is found exactly when none is pressed, and the key found is the least pressed one. -/
theorem keyWaitRepeatsUntilAKey : Obligations.KeyWaitRepeatsUntilAKey := by
  intro x s
  refine ⟨fun hoff => ?blocked, fun k hk hlow => ?pressed⟩
  case blocked =>
    have hnone : s.keys.lowestPressed = none := s.keys.lowestPressed_eq_none_iff.2 hoff
    exact ⟨exec_ldVxK_of_none x hnone, fun hrun hfetch => step_ldVxK_blocked hrun hfetch hnone⟩
  case pressed => exact exec_ldVxK_of_some x (Keys.lowestPressed_eq_some hk hlow)

/-- Settles O30: each move is one write, of a register by the timer or of a timer by the register. -/
theorem timerMoves : Obligations.TimerMoves := by
  intro x s
  exact ⟨exec_ldVxDt x s, exec_ldDtVx x s, exec_ldStVx x s⟩

end Sys2Proof.Machine
end

section
/-! SUPPORT. One instruction as data: `faultOf`, the fault it raises if it exceeds a limit, and `effectOf`, the state
it leaves if it does not. `exec_eq` says that `exec` is these two, for every instruction; the proofs below go through
it. -/

namespace Sys2Proof.Machine

open Sys2Proof.Claims

/-! ### The fault an instruction raises -/

/-- A transfer of `n` bytes through `I` faults when it reaches past 4095 (42_index_memory.md R105, R135). -/
def State.transferFault (s : State) (n : Nat) : Option (FaultKind × Nat) :=
  if 0 < n ∧ 4096 < s.i.toNat + n then some (.memoryRange, firstOutOfRange s.i.toNat) else none

/-- The key number in `V[x]` faults when it is above 15 (44_keys_timers.md R122, R136). -/
def State.keyFault (s : State) (x : Nibble) : Option (FaultKind × Nat) :=
  if 15 < (s.getV x).toNat then some (.keyIndexRange, (s.getV x).toNat) else none

/-- The kind and the address of the fault that an instruction raises, if it raises one (60_exceptions.md section 1). -/
def faultOf (i : Instr) (s : State) : Option (FaultKind × Nat) :=
  match i with
  | .ret => if s.sp.val = 0 then some (.stackUnderflow, 0) else none
  | .call _ => if s.sp.val = 16 then some (.stackOverflow, 0) else none
  | .skp x | .sknp x => s.keyFault x
  | i => s.transferFault (transferredBytes i)

/-! ### The state an instruction leaves -/

/-- The state that an instruction leaves when it raises no fault; `s` has `pc = a + 2`, as `exec` sees it. -/
def effectOf (i : Instr) (s : State) : State :=
  match i with
  | .cls => s.setFb Framebuffer.clear
  | .ret => { s with pc := s.stack[s.sp.val - 1]'(by have := s.sp.isLt; omega),
                     sp := ⟨s.sp.val - 1, by have := s.sp.isLt; omega⟩ }
  | .jp nnn => s.setPc (zext16 nnn)
  | .call nnn => { s with stack := s.stack.setIfInBounds s.sp.val s.pc, sp := Fin.ofNat 17 (s.sp.val + 1),
                          pc := zext16 nnn }
  | .seImm x kk => s.skipIf (s.getV x == kk)
  | .sneImm x kk => s.skipIf (s.getV x != kk)
  | .seReg x y => s.skipIf (s.getV x == s.getV y)
  | .ldImm x kk => s.setV x kk
  | .addImm x kk => s.setV x (s.getV x + kk)
  | .ldReg x y => s.setV x (s.getV y)
  | .orReg x y => s.setV x (s.getV x ||| s.getV y)
  | .andReg x y => s.setV x (s.getV x &&& s.getV y)
  | .xorReg x y => s.setV x (s.getV x ^^^ s.getV y)
  | .addReg x y => s.setResultAndFlag x (s.getV x + s.getV y) (carryFlag (s.getV x) (s.getV y))
  | .subReg x y => s.setResultAndFlag x (s.getV x - s.getV y) (greaterFlag (s.getV x) (s.getV y))
  | .shr x _ => s.setResultAndFlag x (s.getV x >>> 1) (lowBitFlag (s.getV x))
  | .subnReg x y => s.setResultAndFlag x (s.getV y - s.getV x) (greaterFlag (s.getV y) (s.getV x))
  | .shl x _ => s.setResultAndFlag x (s.getV x <<< 1) (highBitFlag (s.getV x))
  | .sneReg x y => s.skipIf (s.getV x != s.getV y)
  | .ldI nnn => s.setI (zext16 nnn)
  | .jpV0 nnn => s.setPc (zext16 nnn + zext16 (s.getV 0))
  | .rnd x kk => (s.setV x (kk &&& s.drawByte)).countDraw
  | .drw x y n => s.showDrawn (drawSprite (s.getV x) (s.getV y) (s.mem.bytesFrom s.i.toNat n.toNat) s.fb)
  | .skp x => s.skipIf (s.keys[(s.getV x).toNat]? == some true)
  | .sknp x => s.skipIf (s.keys[(s.getV x).toNat]? != some true)
  | .ldVxDt x => s.setV x s.dt
  | .ldVxK x => s.keys.lowestPressed.elim s.rewind fun k => s.setV x (BitVec.ofNat 8 k.val)
  | .ldDtVx x => s.setDt (s.getV x)
  | .ldStVx x => s.setSt (s.getV x)
  | .addI x => s.setI (s.i + zext16 (s.getV x))
  | .ldF x => s.setI (glyphAddr (s.getV x))
  | .ldB x => s.setMem (s.mem.setBytes s.i.toNat (bcdDigits (s.getV x)))
  | .storeRegs x => s.setMem (s.mem.setBytes s.i.toNat (s.regsUpTo x))
  | .loadRegs x => s.setRegs (s.v.writeFrom 0 (s.mem.bytesFrom s.i.toNat (x.toNat + 1)))

/-! ### `exec` is these two -/

@[simp] theorem State.effectiveAddr_zero (s : State) : s.effectiveAddr 0 = s.i.toNat := rfl

theorem State.transferFault_eq_none_iff (s : State) (n : Nat) :
    s.transferFault n = none ↔ n = 0 ∨ s.i.toNat + n ≤ 4096 := by
  rw [State.transferFault, ite_eq_right_iff]
  simp only [reduceCtorEq, imp_false]
  omega

theorem State.transferFault_of_gt (s : State) {n : Nat} (hn : 0 < n) (h : 4096 < s.i.toNat + n) :
    s.transferFault n = some (.memoryRange, firstOutOfRange s.i.toNat) := if_pos ⟨hn, h⟩

theorem State.keyFault_of_gt (s : State) {x : Nibble} (h : 15 < (s.getV x).toNat) :
    s.keyFault x = some (.keyIndexRange, (s.getV x).toNat) := if_pos h

theorem State.keyFault_of_lt (s : State) {x : Nibble} (h : (s.getV x).toNat < 16) : s.keyFault x = none :=
  if_neg (by omega)

/-- A store through `I` is its memory write, or the fault of its transfer. -/
theorem storeAtI_eq (i : Instr) (bytes : List Byte) (s : State) :
    storeAtI i bytes s = (s.transferFault bytes.length).elim (.next (s.setMem (s.mem.setBytes s.i.toNat bytes)))
      fun f => raise i f.1 f.2 s := by
  rcases storeAtI_cases i bytes s with ⟨hr, e⟩ | ⟨h0, hr, e⟩
  · rw [e, (s.transferFault_eq_none_iff _).2 hr]; rfl
  · rw [e, s.transferFault_of_gt (Nat.pos_of_ne_zero h0) hr]; rfl

/-- A read through `I` answers the bytes, or its transfer faults. -/
theorem State.read_cases (s : State) (n : Nat) :
    (s.transferFault n = none ∧ s.mem.read (s.effectiveAddr 0) n = some (s.mem.bytesFrom s.i.toNat n)) ∨
    (s.transferFault n = some (.memoryRange, firstOutOfRange s.i.toNat) ∧ s.mem.read (s.effectiveAddr 0) n = none) := by
  by_cases h : n = 0 ∨ s.i.toNat + n ≤ 4096
  · exact .inl ⟨(s.transferFault_eq_none_iff n).2 h, (Memory.read_eq_some_iff _ _ _ _).2 ⟨h, rfl⟩⟩
  · have h' : n ≠ 0 ∧ 4096 < s.i.toNat + n := by omega
    exact .inr ⟨s.transferFault_of_gt (Nat.pos_of_ne_zero h'.1) h'.2, (Memory.read_eq_none_iff _ _ _).2 h'⟩

/-- The key `V[x]` is read, or its number faults. -/
theorem State.pressed?_cases (s : State) (x : Nibble) :
    (∃ b, s.keyFault x = none ∧ s.keys.pressed? (s.getV x) = some b ∧ s.keys[(s.getV x).toNat]? = some b) ∨
    (s.keyFault x = some (.keyIndexRange, (s.getV x).toNat) ∧ s.keys.pressed? (s.getV x) = none) := by
  by_cases h : (s.getV x).toNat < 16
  · exact .inl ⟨_, s.keyFault_of_lt h, s.keys.pressed?_of_lt _ h, Vector.getElem?_eq_getElem h⟩
  · have h' : 15 < (s.getV x).toNat := by omega
    exact .inr ⟨s.keyFault_of_gt h', s.keys.pressed?_of_ge _ h'⟩

/-- Every instruction raises its fault, or else leaves its effect. -/
theorem exec_eq (i : Instr) (s : State) :
    exec i s = (faultOf i s).elim (.next (effectOf i s)) fun f => raise i f.1 f.2 s := by
  cases i with
  | ret =>
    rcases s.pop_cases with ⟨h, e⟩ | ⟨h, e⟩
    · have h0 : ¬ s.sp.val = 0 := by omega
      simp only [exec, execRet, e, faultOf, if_neg h0]; rfl
    · simp only [exec, execRet, e, faultOf, if_pos h]; rfl
  | call nnn =>
    rcases s.push_cases s.pc with ⟨h, e⟩ | ⟨h, e⟩
    · have h0 : ¬ s.sp.val = 16 := by omega
      have hsp : Fin.ofNat 17 (s.sp.val + 1) = ⟨s.sp.val + 1, by omega⟩ := Fin.ext (Nat.mod_eq_of_lt (by omega))
      have hst : s.stack.setIfInBounds s.sp.val s.pc = s.stack.set s.sp.val s.pc h := by
        simp [Vector.setIfInBounds, Vector.set, Array.setIfInBounds, h]
      simp only [exec, execCall, e, faultOf, if_neg h0, effectOf, hsp, hst]; rfl
    · simp only [exec, execCall, e, faultOf, if_pos h]; rfl
  | skp x =>
    rcases s.pressed?_cases x with ⟨b, hf, e, hk⟩ | ⟨hf, e⟩
    · simp only [exec, execSkp, e, faultOf, hf, effectOf, hk]
      cases b <;> rfl
    · simp only [exec, execSkp, e, faultOf, hf]; rfl
  | sknp x =>
    rcases s.pressed?_cases x with ⟨b, hf, e, hk⟩ | ⟨hf, e⟩
    · simp only [exec, execSknp, e, faultOf, hf, effectOf, hk]
      cases b <;> rfl
    · simp only [exec, execSknp, e, faultOf, hf]; rfl
  | drw x y n =>
    rcases s.read_cases n.toNat with ⟨hf, e⟩ | ⟨hf, e⟩
      <;> simp only [exec, execDrw, e, faultOf, transferredBytes, hf] <;> rfl
  | loadRegs x =>
    rcases s.read_cases (x.toNat + 1) with ⟨hf, e⟩ | ⟨hf, e⟩
      <;> simp only [exec, execLoadRegs, e, faultOf, transferredBytes, hf] <;> rfl
  | ldB x => exact storeAtI_eq (.ldB x) (bcdDigits (s.getV x)) s
  | storeRegs x =>
    have h := storeAtI_eq (.storeRegs x) (s.regsUpTo x) s
    rwa [length_regsUpTo] at h
  | ldVxK x =>
    cases h : s.keys.lowestPressed with
    | none => rw [exec_ldVxK_of_none x h, effectOf, h]; rfl
    | some k => rw [exec_ldVxK_of_some x h, effectOf, h]; rfl
  | _ => rfl

/-- An instruction within its limits leaves its effect. -/
theorem exec_of_faultOf_none {i : Instr} {s : State} (h : faultOf i s = none) : exec i s = .next (effectOf i s) := by
  rw [exec_eq, h]; rfl

/-- An instruction past a limit raises its fault. -/
theorem exec_of_faultOf_some {i : Instr} {s : State} {f : FaultKind × Nat} (h : faultOf i s = some f) :
    exec i s = raise i f.1 f.2 s := by
  rw [exec_eq, h]; rfl

/-- What a next state can be: the effect, or the fault taken at the instruction's own address. -/
theorem exec_next_cases {i : Instr} {s t : State} (h : exec i s = .next t) :
    (faultOf i s = none ∧ t = effectOf i s) ∨
    ∃ f, faultOf i s = some f ∧ t = s.rewind.latchFault f.1 (encode i) f.2 := by
  cases hf : faultOf i s with
  | none =>
    rw [exec_of_faultOf_none hf] at h
    cases h
    exact .inl ⟨rfl, rfl⟩
  | some f =>
    rw [exec_of_faultOf_some hf, raise_eq] at h
    cases h
    exact .inr ⟨f, rfl, rfl⟩

/-- On a running core a raised fault leaves the fault state of the statements. -/
theorem raise_of_running {s : State} (h : s.halted = false) (i : Instr) (k : FaultKind) (a : Nat) :
    raise i k a s = .next (faulted s k (encode i) (BitVec.ofNat 17 a)) := by
  rw [raise_eq, State.latchFault_of_running _ (by rwa [State.rewind_halted])]
  rfl

theorem exec_faulted {i : Instr} {s : State} {k : FaultKind} {a : Nat} (h : s.halted = false)
    (hf : faultOf i s = some (k, a)) : exec i s = .next (faulted s k (encode i) (BitVec.ofNat 17 a)) := by
  rw [exec_of_faultOf_some hf, raise_of_running h]

end Sys2Proof.Machine
end

section
/-! SUPPORT. Proofs of the frame statements: which registers, which bytes of memory and which elements of the state an
instruction changes (10_state.md sections 1, 2, 12; 20_memory.md section 5), and what it does not read. -/

namespace Sys2Proof.Machine

open Sys2Proof.Claims

/-! ### Registers, memory and latch after an effect -/

@[simp] theorem State.setRegs_getV (s : State) (v : Regs) (q : Nibble) :
    (s.setRegs v).getV q = v[q.toNat]'q.isLt := rfl

@[simp] theorem State.showDrawn_getV (s : State) (d : Framebuffer × Bool) (q : Nibble) :
    (s.showDrawn d).getV q = (s.setFlag d.2).getV q := rfl

/-- The key wait leaves the state of its rewind or of one register write. -/
theorem effectOf_ldVxK_cases (x : Nibble) (s : State) :
    effectOf (.ldVxK x) s = s.rewind ∨ ∃ b, effectOf (.ldVxK x) s = s.setV x b := by
  cases h : s.keys.lowestPressed with
  | none => exact .inl (by rw [effectOf, h]; rfl)
  | some k => exact .inr ⟨_, by rw [effectOf, h]; rfl⟩

/-- Register `k` up to `x` after LD Vx,[I] is byte `k` of the transfer. -/
theorem getElem_writeFrom_bytesFrom (v : Regs) (m : Memory) (a : Nat) {n j : Nat} (hj : j < 16) (h : j < n) :
    (v.writeFrom 0 (m.bytesFrom a n))[j] = m.byteAt (a + j) := by
  rw [Regs.getElem_writeFrom, if_pos (Nat.zero_le j), Nat.sub_zero, Memory.getElem?_bytesFrom m n a j h]
  rfl

/-- The registers past the transfer are as before. -/
theorem getElem_writeFrom_of_le (v : Regs) {bytes : List Byte} {j : Nat} (hj : j < 16) (h : bytes.length ≤ j) :
    (v.writeFrom 0 bytes)[j] = v[j] := by
  rw [Regs.getElem_writeFrom, if_pos (Nat.zero_le j), Nat.sub_zero, List.getElem?_eq_none h]
  rfl

/-- A register that the rule does not name reads as before. -/
theorem effectOf_getV {i : Instr} {s : State} {q : Nibble} (h : ¬ mayWrite i q) :
    (effectOf i s).getV q = s.getV q := by
  cases i with
  | ldImm x _ | addImm x _ | ldReg x _ | orReg x _ | andReg x _ | xorReg x _ | rnd x _ | ldVxDt x =>
    exact s.getV_setV_ne _ h
  | addReg x _ | subReg x _ | shr x _ | subnReg x _ | shl x _ =>
    obtain ⟨hx, hf⟩ := not_or.1 h
    exact s.getV_setResultAndFlag_ne _ _ hx hf
  | drw x y n => exact s.getV_setFlag_ne _ h
  | loadRegs x =>
    have hq : x.toNat + 1 ≤ q.toNat := Nat.lt_of_not_le h
    exact getElem_writeFrom_of_le s.v q.isLt (by rwa [Memory.length_bytesFrom])
  | ldVxK x =>
    rcases effectOf_ldVxK_cases x s with e | ⟨b, e⟩
    · rw [e, State.rewind_getV]
    · rw [e, s.getV_setV_ne _ h]
  | ret | call _ => rfl
  | _ => simp [effectOf]

/-- An address outside the bytes that the instruction stores reads as before. -/
theorem effectOf_byteAt {i : Instr} {s : State} {a : Nat}
    (h : a < s.effectiveAddr 0 ∨ s.effectiveAddr (storedBytes i) ≤ a) :
    (effectOf i s).mem.byteAt a = s.mem.byteAt a := by
  cases i with
  | ldB x => exact Memory.byteAt_setBytes_outside _ _ _ h
  | storeRegs x => exact Memory.byteAt_setBytes_outside _ _ _ (by rwa [length_regsUpTo])
  | ldVxK x => rcases effectOf_ldVxK_cases x s with e | ⟨b, e⟩ <;> rw [e] <;> rfl
  | drw x y n => rfl
  | _ => simp [effectOf]

/-- No effect sets the latch. -/
theorem effectOf_halted (i : Instr) (s : State) : (effectOf i s).halted = s.halted := by
  cases i with
  | ldVxK x => rcases effectOf_ldVxK_cases x s with e | ⟨b, e⟩ <;> rw [e] <;> rfl
  | drw x y n => rfl
  | _ => simp [effectOf]

/-! ### The obligations -/

/-- Settles O14: an effect leaves the registers its rule does not name, a fault leaves them all. -/
theorem onlyNamedRegistersAreWritten : Obligations.OnlyNamedRegistersAreWritten := by
  intro i s t h q hq
  rcases exec_next_cases h with ⟨-, rfl⟩ | ⟨f, -, rfl⟩
  · exact effectOf_getV hq
  · rw [State.latchFault_getV, State.rewind_getV]

/-- Settles O20: an effect leaves the bytes it does not store, a fault leaves them all. -/
theorem onlyStoredBytesChange : Obligations.OnlyStoredBytesChange := by
  intro i s t h a ha
  rcases exec_next_cases h with ⟨-, rfl⟩ | ⟨f, -, rfl⟩
  · exact effectOf_byteAt ha
  · rw [State.latchFault_mem, State.rewind_mem]

/-- Settles O39: each effect is built from updates of the elements it may write, and a fault sets the latch with the
record. -/
theorem elementsChangeOnlyByTheirWriters : Obligations.ElementsChangeOnlyByTheirWriters := by
  intro i s t hrun h
  rcases exec_next_cases h with ⟨-, rfl⟩ | ⟨f, -, rfl⟩
  case inl =>
    cases i with
    | ldVxK x => rcases effectOf_ldVxK_cases x s with e | ⟨b, e⟩ <;> simp [e]
    | _ => simp [effectOf, State.showDrawn]
  case inr => simp

end Sys2Proof.Machine
end

section
/-! SUPPORT. Proofs of the statements about STEP (30_encoding.md section 5; 60_exceptions.md sections 1 and 2): its
outcomes, its faults, where it leaves `pc`, and what it does not read. -/

namespace Sys2Proof.Machine

open Sys2Proof.Claims

/-! ### STEP by the outcome of its fetch -/

theorem step_of_halted {s : State} (h : s.halted = true) : step s = .next s := by
  simp [step, h]

theorem step_of_raised {s : State} {k : FaultKind} {w : Word} {a : Nat} (h : s.halted = false)
    (e : s.fetchDecode = .raised k w a) : step s = .next (s.latchFault k w a) := by
  simp [step, h, e]

/-- STEP of an instruction within its limits. -/
theorem step_of_effect {s : State} {i : Instr} (h : s.halted = false) (e : s.fetchDecode = .run i)
    (hf : faultOf i s.advance = none) : step s = .next (effectOf i s.advance) :=
  (step_of_run h e).trans (exec_of_faultOf_none hf)

/-- STEP of an instruction past a limit takes the fault at the state before it. -/
theorem step_of_faultOf {s : State} {i : Instr} {f : FaultKind × Nat} (h : s.halted = false)
    (e : s.fetchDecode = .run i) (hf : faultOf i s.advance = some f) :
    step s = .next (s.latchFault f.1 (encode i) f.2) := by
  rw [step_of_run h e, exec_of_faultOf_some hf, raise_eq, State.rewind_advance]

/-- Every STEP has a next state. -/
theorem step_total (s : State) : ∃ t, step s = .next t := by
  cases h : s.halted with
  | true => exact ⟨s, step_of_halted h⟩
  | false =>
    rcases step_cases s h with ⟨k, w, a, e, -⟩ | ⟨i, t, -, -, e, -⟩
    · exact ⟨_, e⟩
    · exact ⟨t, e⟩

/-- What the next state of a running core can be: a fault taken at the unchanged state, or the effect of the instruction
fetched. -/
theorem step_next_cases {s t : State} (h : s.halted = false) (hstep : step s = .next t) :
    (∃ k w a, t = s.latchFault k w a ∧ k ≠ .none ∧ k ≠ .loadRange) ∨
    ∃ i, s.fetchDecode = .run i ∧ faultOf i s.advance = none ∧ t = effectOf i s.advance ∧ t.halted = false ∧
      t.fault = s.fault := by
  rcases step_cases s h with ⟨k, w, a, e, hk⟩ | ⟨i, u, hrun, he, e, hu, hfault⟩
  · rw [e] at hstep
    cases hstep
    exact .inl ⟨k, w, a, rfl, hk⟩
  · rw [e] at hstep
    cases hstep
    rcases exec_next_cases he with ⟨hf, ht⟩ | ⟨f, -, ht⟩
    · exact .inr ⟨i, hrun, hf, ht, hu, hfault⟩
    · have hl : t.halted = true := by rw [ht, State.latchFault_halted]
      exact absurd hl (by rw [hu]; decide)

/-! ### Where an effect leaves `pc` (10_state.md R18) -/

theorem add_two_add_two (a : Word) : a + 2 + 2 = a + 4 := BitVec.add_assoc a 2 2

/-- The advance and then a skip under condition `c` is 4 or 2 past the instruction. -/
theorem State.advance_skipIf_pc (s : State) (c : Bool) :
    (s.advance.skipIf c).pc = if c then s.pc + 4 else s.pc + 2 := by
  rw [State.skipIf_pc, State.advance_pc, add_two_add_two]

theorem effectOf_advance_pc (i : Instr) (s : State) : (effectOf i s.advance).pc = pcAfter i s := by
  cases i with
  | seImm _ _ | sneImm _ _ | seReg _ _ | sneReg _ _ | skp _ | sknp _ =>
    refine (s.advance_skipIf_pc _).trans ?_
    simp [pcAfter]
  | ldVxK x =>
    cases h : s.keys.lowestPressed with
    | none =>
      have hoff := s.keys.lowestPressed_eq_none_iff.1 h
      rw [effectOf, State.advance_keys, h, pcAfter, if_pos hoff]
      exact congrArg State.pc s.rewind_advance
    | some k =>
      have hon : ¬ ∀ k : Fin 16, s.keys[k] = false := fun hoff => by
        rw [s.keys.lowestPressed_eq_none_iff.2 hoff] at h
        cases h
      rw [effectOf, State.advance_keys, h, pcAfter, if_neg hon]
      rfl
  | _ => rfl

/-- A CALL within the depth leaves its return address in the entry it pushes (40_control_flow.md R83). -/
theorem effectOf_call_stack (nnn : Addr) {s : State} (h : s.sp.val < 16) :
    (effectOf (.call nnn) s).stack[s.sp.val]? = some s.pc := by
  simp [effectOf, h]

theorem faultOf_call_eq_none_iff (nnn : Addr) (s : State) : faultOf (.call nnn) s = none ↔ s.sp.val < 16 := by
  have := s.sp.isLt
  rw [faultOf, ite_eq_right_iff]
  simp only [reduceCtorEq, imp_false]
  omega

/-! ### The limits of an instruction (70_reset_and_hazards.md R174) -/

/-- The limits of R174 that instruction `i` itself exceeds in state `s`. -/
def ExceedsALimit (i : Instr) (s : State) : Prop :=
  (∃ nnn, i = .call nnn) ∧ s.sp.val = 16 ∨ i = .ret ∧ s.sp.val = 0 ∨
    (∃ x, (i = .skp x ∨ i = .sknp x) ∧ 15 < (s.getV x).toNat) ∨
    (0 < transferredBytes i ∧ 4096 < s.i.toNat + transferredBytes i)

theorem State.transferFault_isSome_iff (s : State) (n : Nat) :
    (s.transferFault n).isSome ↔ 0 < n ∧ 4096 < s.i.toNat + n := by
  simp [State.transferFault]

theorem State.keyFault_isSome_iff (s : State) (x : Nibble) : (s.keyFault x).isSome ↔ 15 < (s.getV x).toNat := by
  simp [State.keyFault]

/-- An instruction faults exactly past a limit. -/
theorem faultOf_isSome_iff (i : Instr) (s : State) : (faultOf i s).isSome ↔ ExceedsALimit i s := by
  cases i with
  | ret | call _ => simp [faultOf, ExceedsALimit, transferredBytes]
  | skp _ | sknp _ => simp [faultOf, ExceedsALimit, transferredBytes, State.keyFault_isSome_iff]
  | _ => simp [faultOf, ExceedsALimit, State.transferFault_isSome_iff]

/-- The fetch's advance moves `pc` alone, on which no limit of an instruction depends. -/
theorem faultOf_advance (i : Instr) (s : State) : faultOf i s.advance = faultOf i s := by
  cases i <;> rfl

theorem breaksALimit_of_run {s : State} {i : Instr} (e : s.fetchDecode = .run i) :
    BreaksALimit s ↔ ExceedsALimit i s := by
  constructor
  · rintro (hpc | ⟨w, c, hw, hc⟩ | ⟨j, ej, hj⟩)
    · exact absurd (State.pc_le_of_run e) (by omega)
    · rw [State.fetchDecode, hw] at e
      simp [hc] at e
    · rw [e] at ej
      cases ej
      exact hj
  · exact fun h => .inr (.inr ⟨i, e, h⟩)

/-! ### `ST` and `display_changed` are not read -/

/-- The states agree but for `ST` and `display_changed`. -/
def AgreeButHint (t t' : State) : Prop := t' = { t with st := t'.st, displayChanged := t'.displayChanged }

/-- `s` with another value of `ST` and `display_changed`. -/
def State.withHint (s : State) (v : Byte) (d : Bool) : State := { s with st := v, displayChanged := d }

theorem agreeButHint_latchFault (s : State) (v : Byte) (d : Bool) (k : FaultKind) (w : Word) (a : Nat) :
    AgreeButHint (s.latchFault k w a) ((s.withHint v d).latchFault k w a) := by
  cases h : s.halted with
  | true =>
    rw [State.latchFault_of_halted _ h, State.latchFault_of_halted (s.withHint v d) h]
    rfl
  | false =>
    rw [State.latchFault_of_running _ h, State.latchFault_of_running (s.withHint v d) h]
    rfl

theorem agreeButHint_effectOf (i : Instr) (s : State) (v : Byte) (d : Bool) :
    AgreeButHint (effectOf i s) (effectOf i (s.withHint v d)) := by
  cases i with
  | seImm _ _ | sneImm _ _ | seReg _ _ | sneReg _ _ | skp _ | sknp _ =>
    simp only [effectOf, State.skipIf_eq]
    rfl
  | ldVxK x =>
    have hkeys : (s.withHint v d).keys = s.keys := rfl
    rw [effectOf, effectOf, hkeys]
    cases s.keys.lowestPressed <;> rfl
  | _ => rfl

theorem faultOf_withHint (i : Instr) (s : State) (v : Byte) (d : Bool) :
    faultOf i (s.withHint v d) = faultOf i s := by
  cases i <;> rfl

/-! ### The obligations -/

/-- Settles O5: a fault is taken at the unchanged state, and an effect leaves `pc` as the table says. -/
theorem stepLeavesProgramCounterPerTable : Obligations.StepLeavesProgramCounterPerTable := by
  intro s hrun
  obtain ⟨t, hstep⟩ := step_total s
  refine ⟨t, hstep, ?_⟩
  rcases step_next_cases hrun hstep with ⟨k, w, a, rfl, -⟩ | ⟨i, hfetch, hf, rfl, ht, -⟩
  · exact ⟨fun _ => s.latchFault_pc k w a, fun h => absurd h (by rw [State.latchFault_halted]; decide)⟩
  · refine ⟨fun h => absurd h (by rw [ht]; decide), fun _ => ⟨i, hfetch, effectOf_advance_pc i s, ?_⟩⟩
    rintro nnn rfl
    have hsp : s.advance.sp.val < 16 := (faultOf_call_eq_none_iff nnn _).1 hf
    exact effectOf_call_stack nnn hsp

/-- Settles O34: the four outcomes of STEP, by the latch, `pc` and the word fetched. -/
theorem stepRunsTheDecodedInstruction : Obligations.StepRunsTheDecodedInstruction := by
  intro s
  refine ⟨step_of_halted, fun hrun => ⟨fun hpc => ?fetch, fun hpc c hc => ?illegal, fun hpc i hi => ?run⟩⟩
  case fetch =>
    have e : s.fetchDecode = .raised .memoryRange 0 (firstOutOfRange s.pc.toNat) := by
      simp [State.fetchDecode, s.fetchWord_of_gt hpc]
    rw [step_of_raised hrun e, State.latchFault_of_running s hrun]
    rfl
  case illegal =>
    have e : s.fetchDecode =
        .raised .decodeError (wordOfBytes (s.mem.byteAt s.pc.toNat) (s.mem.byteAt (s.pc.toNat + 1))) 0 := by
      simp [State.fetchDecode, s.fetchWord_of_le hpc, wordOfBytes, hc]
    rw [step_of_raised hrun e, State.latchFault_of_running s hrun]
    rfl
  case run =>
    have e : s.fetchDecode = .run i := by
      simp [State.fetchDecode, s.fetchWord_of_le hpc, wordOfBytes, hi]
    exact step_of_run hrun e

/-- Settles O36: the fault of a step is one latch of the unchanged state. -/
theorem faultsArePrecise : Obligations.FaultsArePrecise := by
  intro s t hrun hstep ht
  rcases step_next_cases hrun hstep with ⟨k, w, a, rfl, hk, hk'⟩ | ⟨-, -, -, -, hf, -⟩
  · rw [State.latchFault_of_running s hrun]
    exact ⟨rfl, rfl, rfl, hk, hk'⟩
  · exact absurd ht (by rw [hf]; decide)

/-- Settles O37: the fetch and decode faults are the first two limits, and an instruction faults exactly past one of its
own. -/
theorem stepFaultsExactlyPastALimit : Obligations.StepFaultsExactlyPastALimit := by
  intro s t hrun hstep
  have hraised : ∀ {k w a}, s.fetchDecode = .raised k w a → t.halted = true := fun e => by
    rw [step_of_raised hrun e] at hstep
    cases hstep
    exact State.latchFault_halted ..
  rcases s.fetchDecode_cases with ⟨hpc, e⟩ | ⟨-, w, hw, ⟨i, -, e⟩ | ⟨c, hc, e⟩⟩
  · exact iff_of_true (hraised e) (.inl hpc)
  · rw [breaksALimit_of_run e, ← faultOf_isSome_iff, ← faultOf_advance]
    cases hf : faultOf i s.advance with
    | some f =>
      rw [step_of_faultOf hrun e hf] at hstep
      cases hstep
      simp
    | none =>
      rw [step_of_effect hrun e hf] at hstep
      cases hstep
      simp [effectOf_halted, hrun]
  · exact iff_of_true (hraised e) (.inr (.inl ⟨w, c, hw, hc⟩))

/-- Settles O40: fetch, limits and effects read neither field, and no update copies them elsewhere. -/
theorem soundTimerAndHintAreNeverRead : Obligations.SoundTimerAndHintAreNeverRead := by
  intro s v d
  change ∃ t t', step s = .next t ∧ step (s.withHint v d) = .next t' ∧ AgreeButHint t t'
  have hhalted : (s.withHint v d).halted = s.halted := rfl
  have hfetch : (s.withHint v d).fetchDecode = s.fetchDecode := rfl
  cases h : s.halted with
  | true => exact ⟨s, _, step_of_halted h, step_of_halted (hhalted.trans h), rfl⟩
  | false =>
    cases e : s.fetchDecode with
    | raised k w a =>
      exact ⟨_, _, step_of_raised h e, step_of_raised (hhalted.trans h) (hfetch.trans e),
        agreeButHint_latchFault s v d k w a⟩
    | run i =>
      have hf' : faultOf i (s.withHint v d).advance = faultOf i s.advance := faultOf_withHint i s.advance v d
      cases hf : faultOf i s.advance with
      | some f =>
        exact ⟨_, _, step_of_faultOf h e hf, step_of_faultOf (hhalted.trans h) (hfetch.trans e) (hf'.trans hf),
          agreeButHint_latchFault s v d f.1 (encode i) f.2⟩
      | none =>
        exact ⟨_, _, step_of_effect h e hf, step_of_effect (hhalted.trans h) (hfetch.trans e) (hf'.trans hf),
          agreeButHint_effectOf i s.advance v d⟩

end Sys2Proof.Machine
end

section
/-! SUPPORT. Proofs of the statements about FRAME, TICK and the other moves of the driver (60_exceptions.md sections 4
and 5; 70_reset_and_hazards.md section 1). -/

namespace Sys2Proof.Machine

/-! ### FRAME -/

theorem frame_of_halted {s : State} (h : s.halted = true) (n : Nat) : frame n s = .next s := by
  rw [frame, if_pos h]

theorem frame_of_running {s : State} (h : s.halted = false) (n : Nat) :
    frame n s = frameSteps n (s.setDisplayChanged false) := by
  rw [frame, h]
  exact if_neg Bool.false_ne_true

/-- A FRAME after one of its steps: over if the step faulted, else the steps that are left. -/
theorem frameSteps_succ (n : Nat) {s u : State} (h : step s = .next u) :
    frameSteps (n + 1) s = if u.halted then .next u else frameSteps n u := by
  rw [frameSteps, h]

/-- The steps of the host's run of a halted core change nothing. -/
theorem run_core_of_halted {s : State} (h : s.halted = true) : ∀ n, Host.Core.run Sys2Proof.core n s = .next s
  | 0 => rfl
  | n + 1 => (run_core_succ n (step_of_halted h)).trans (run_core_of_halted h n)

/-- The steps of a FRAME are those of the host's run, followed by a TICK if the core is not halted then. -/
theorem frameSteps_eq_run : ∀ (n : Nat) {s : State}, s.halted = false →
    ∃ t, Host.Core.run Sys2Proof.core n s = .next t ∧ frameSteps n s = .next (if t.halted then t else t.tick)
  | 0, s, h => ⟨s, rfl, by rw [h]; rfl⟩
  | n + 1, s, h => by
    obtain ⟨u, hstep⟩ := step_total s
    rw [run_core_succ n hstep, frameSteps_succ n hstep]
    cases hu : u.halted with
    | true => exact ⟨u, run_core_of_halted hu n, by rw [hu]; rfl⟩
    | false => exact frameSteps_eq_run n hu

/-- The steps of a FRAME where STEP changes nothing leave only the TICK. -/
theorem frameSteps_of_fixed_point {s : State} (hrun : s.halted = false) (hstep : step s = .next s) :
    ∀ n, frameSteps n s = .next s.tick
  | 0 => rfl
  | n + 1 => by
    rw [frameSteps_succ n hstep, hrun]
    exact frameSteps_of_fixed_point hrun hstep n

/-! ### STEP at a jump to itself, and `display_changed` over a STEP -/

/-- STEP of a jump to its own address: the write of `pc` undoes the fetch's advance. -/
theorem step_of_finished {s : State} (hrun : s.halted = false) (h : s.finished) : step s = .next s := by
  obtain ⟨nnn, hfetch, hpc⟩ := h
  rw [step_of_run hrun hfetch, exec_jp, ← hpc]
  rfl

/-- Only a DRW sets `display_changed`: a step of another instruction, or one that faults, leaves it clear. -/
theorem step_displayChanged {s t : State} (hrun : s.halted = false) (hclear : s.displayChanged = false)
    (hstep : step s = .next t) : t.displayChanged = false ∨ ∃ x y m, s.fetchDecode = .run (.drw x y m) := by
  by_cases hsame : t.displayChanged = s.displayChanged
  · exact .inl (hsame.trans hclear)
  · rcases step_cases s hrun with ⟨k, w, a, e, -⟩ | ⟨i, u, hfetch, he, e, -⟩
    · rw [e] at hstep
      cases hstep
      exact absurd (State.latchFault_displayChanged ..) hsame
    · rw [e] at hstep
      cases hstep
      obtain ⟨-, -, -, -, -, -, -, -, hwriter, -⟩ := elementsChangeOnlyByTheirWriters i s.advance t hrun he
      obtain ⟨⟨x, y, m, rfl⟩, -⟩ := hwriter hsame
      exact .inr ⟨x, y, m, hfetch⟩

/-- If a FRAME's steps leave `display_changed` set, one of them fetched a DRW. -/
theorem exists_drw_of_frameSteps : ∀ (n : Nat) {s t : State}, s.halted = false → s.displayChanged = false →
    frameSteps n s = .next t → t.displayChanged = true →
    ∃ k u x y m, k < n ∧ Host.Core.run Sys2Proof.core k s = .next u ∧ u.fetchDecode = .run (.drw x y m)
  | 0, s, t, _, hclear, hframe, hset => by
    cases hframe
    exact absurd (hclear.symm.trans hset) Bool.false_ne_true
  | n + 1, s, t, hrun, hclear, hframe, hset => by
    obtain ⟨u, hstep⟩ := step_total s
    rcases step_displayChanged hrun hclear hstep with hu | ⟨x, y, m, hfetch⟩
    · rw [frameSteps_succ n hstep] at hframe
      cases hhalt : u.halted with
      | true =>
        rw [hhalt] at hframe
        cases hframe
        exact absurd (hu.symm.trans hset) Bool.false_ne_true
      | false =>
        rw [hhalt] at hframe
        obtain ⟨k, v, x, y, m, hk, hv, hfetch⟩ := exists_drw_of_frameSteps n hhalt hu hframe hset
        exact ⟨k + 1, v, x, y, m, Nat.succ_lt_succ hk, (run_core_succ k hstep).trans hv, hfetch⟩
    · exact ⟨0, s, x, y, m, Nat.succ_pos n, rfl, hfetch⟩

/-! ### The obligations: frames -/

/-- Settles O33: the FRAME of a running core is the host's run from the state with `display_changed` cleared. -/
theorem frameIsStepsThenTick : Obligations.FrameIsStepsThenTick := by
  intro n s
  refine ⟨fun h => frame_of_halted h n, fun h => ?_⟩
  rw [frame_of_running h]
  exact frameSteps_eq_run n (s := s.setDisplayChanged false) h

/-- Settles O7: the jump to itself is a fixed point of STEP, with `display_changed` cleared too. -/
theorem selfJumpIsAFixedPoint : Obligations.SelfJumpIsAFixedPoint := by
  intro s hrun hfin
  have hclear : (s.setDisplayChanged false).finished := hfin
  refine ⟨step_of_finished hrun hfin, fun n => ?_⟩
  rw [frame_of_running hrun]
  exact frameSteps_of_fixed_point (s := s.setDisplayChanged false) hrun (step_of_finished hrun hclear) n

/-- Settles O29: the blocked key wait is a fixed point of STEP. -/
theorem blockedKeyWaitUsesUpTheFrame : Obligations.BlockedKeyWaitUsesUpTheFrame := by
  intro n x s hrun hfetch hoff
  have hnone : s.keys.lowestPressed = none := s.keys.lowestPressed_eq_none_iff.2 hoff
  have hstep : step (s.setDisplayChanged false) = .next (s.setDisplayChanged false) :=
    step_ldVxK_blocked hrun hfetch hnone
  rw [frame_of_running hrun]
  exact frameSteps_of_fixed_point (s := s.setDisplayChanged false) hrun hstep n

/-- Settles O26: a FRAME starts with `display_changed` clear, and only the step of a DRW sets it. -/
theorem displayChangedOnlyByDrw : Obligations.DisplayChangedOnlyByDrw := by
  intro n s t hrun hframe hset
  rw [frame_of_running hrun] at hframe
  exact exists_drw_of_frameSteps n (s := s.setDisplayChanged false) hrun rfl hframe hset

/-! ### The obligations: TICK -/

/-- Settles O31: TICK writes the two timers, each with its decrement. -/
theorem tickDecrementsFlooredAtZero : Obligations.TickDecrementsFlooredAtZero := by
  intro s
  exact ⟨toNat_tickTimer s.dt, toNat_tickTimer s.st, rfl⟩

/-- Both timers after `n` ticks. -/
theorem toNat_iterate_tick (n : Nat) (s : State) :
    (State.tick^[n] s).dt.toNat = s.dt.toNat - n ∧ (State.tick^[n] s).st.toNat = s.st.toNat - n := by
  induction n with
  | zero => exact ⟨rfl, rfl⟩
  | succ n ih =>
    obtain ⟨hdt, hst⟩ := ih
    obtain ⟨htick, stick, -⟩ := tickDecrementsFlooredAtZero (State.tick^[n] s)
    rw [Function.iterate_succ_apply', htick, stick]
    omega

/-- Settles O32: a timer is at most 255, so 255 ticks bring it to 0. -/
theorem timersReachZeroAndStay : Obligations.TimersReachZeroAndStay := by
  intro n s
  obtain ⟨hdt, hst⟩ := toNat_iterate_tick n s
  have hd : s.dt.toNat < 256 := s.dt.isLt
  have hs : s.st.toNat < 256 := s.st.isLt
  refine ⟨hdt, hst, fun hn => ⟨BitVec.eq_of_toNat_eq ?_, BitVec.eq_of_toNat_eq ?_⟩⟩
  · rw [hdt, Nat.sub_eq_zero_of_le (by omega)]
    rfl
  · rw [hst, Nat.sub_eq_zero_of_le (by omega)]
    rfl

/-! ### The obligations: the moves of the driver -/

/-- Settles O35: STEP is total, a FRAME is a run of STEPs, and the other moves are functions. -/
theorem everyMoveHasANextState : Obligations.EveryMoveHasANextState := by
  refine ⟨step_total, fun m s => ?_⟩
  cases m with
  | reset | load _ _ | setKeys _ => exact ⟨_, rfl⟩
  | step => exact step_total s
  | frame n =>
    cases h : s.halted with
    | true => exact ⟨s, frame_of_halted h n⟩
    | false =>
      obtain ⟨t, -, hframe⟩ := (frameIsStepsThenTick n s).2 h
      exact ⟨_, hframe⟩

/-- Settles O38: each move but RESET first looks at the latch. -/
theorem haltedCoreIsFrozenUntilReset : Obligations.HaltedCoreIsFrozenUntilReset := by
  intro s
  refine ⟨fun h m hm => ?_, rfl⟩
  cases m with
  | reset => exact absurd rfl hm
  | load address bytes => exact congrArg Host.Outcome.next (if_pos h)
  | setKeys k => exact congrArg Host.Outcome.next (if_pos h)
  | step => exact step_of_halted h
  | frame n => exact frame_of_halted h n

theorem loadMove_of_le {s : State} (h : s.halted = false) {address : Nat} {bytes : List Byte}
    (hr : address + bytes.length ≤ 4096) :
    loadMove address bytes s = s.setMem (s.mem.setBytes address bytes) := by
  have hr' : ¬ address + bytes.length > Config.memSize := Nat.not_lt_of_le hr
  rw [loadMove, h, if_neg Bool.false_ne_true, if_neg hr']

theorem loadMove_of_gt {s : State} (h : s.halted = false) {address : Nat} {bytes : List Byte}
    (hr : 4096 < address + bytes.length) : loadMove address bytes s = s.latchFault .loadRange 0 0 := by
  have hr' : address + bytes.length > Config.memSize := hr
  rw [loadMove, h, if_neg Bool.false_ne_true, if_pos hr']

/-- Settles O45: LOAD in range is one write of consecutive bytes, out of range one fault. -/
theorem loadAndSetKeys : Obligations.LoadAndSetKeys := by
  intro s address bytes k h
  refine ⟨?setKeys, fun hr => ⟨_, loadMove_of_le h hr, ?inside, ?outside, rfl⟩, fun hr => ?fault⟩
  case setKeys => exact if_neg (by rw [h]; exact Bool.false_ne_true)
  case inside => exact fun j hj => Memory.byteAt_setBytes_inside s.mem address bytes hj
  case outside => exact fun a ha => Memory.byteAt_setBytes_outside s.mem address bytes ha
  case fault =>
    rw [loadMove_of_gt h hr, State.latchFault_of_running s h]
    rfl

/-! ### The obligation: the reset values -/

/-- Reset memory is 0 outside the font. -/
theorem resetByte_eq_zero {a : Nat} (h : a < 0x50 ∨ 0x9F < a) : resetByte a = 0 := by
  rw [resetByte]
  split
  · next hle =>
    have hlen : Config.fontRom.length = 80 := rfl
    have hge : Config.fontRom.length ≤ a - Config.fontBase := by
      rw [hlen]
      simp only [Config.fontBase] at hle ⊢
      omega
    exact List.getD_eq_default _ _ hge
  · rfl

/-- Reset memory holds the font at its base. -/
theorem resetByte_font {k : Nat} (h : k < 80) : Config.fontRom[k]? = some (resetByte (0x50 + k)) := by
  have hlen : k < Config.fontRom.length := h
  have hle : Config.fontBase ≤ 0x50 + k := Nat.le_add_right _ _
  have hsub : 0x50 + k - Config.fontBase = k := Nat.add_sub_cancel_left ..
  rw [resetByte, if_pos hle, hsub, List.getD_eq_getElem _ _ hlen, List.getElem?_eq_getElem hlen]

/-- Settles O44: registers, keys and pixels are replicated zeros, and memory lists nothing, so that it reads as the
reset contents. -/
theorem resetValues : Obligations.ResetValues := by
  have hv : ∀ r, State.reset.getV r = 0 := fun r => Vector.getElem_replicate r.isLt
  have hkeys : ∀ k : Fin 16, State.reset.keys[k] = false := fun k => Vector.getElem_replicate k.isLt
  exact ⟨hv, rfl, rfl, rfl, rfl, rfl, hkeys, Framebuffer.pixel_clear, rfl, rfl, fun a => resetByte_eq_zero,
    fun k => resetByte_font, by decide, by decide⟩

end Sys2Proof.Machine
end

section
/-! SUPPORT. Proofs of the statements about the invariant of the machine: RESET has it, and STEP and every move of the
driver keep it (10_state.md sections 3, 5, 14; 60_exceptions.md section 2). -/

namespace Sys2Proof.Machine

open Sys2Proof.Claims

/-! ### The parts of the invariant that an effect keeps -/

/-- An effect keeps memory in canonical form: an instruction within its limits stores inside memory. -/
theorem wf_effectOf {i : Instr} {s : State} (h : s.mem.wf) (hf : faultOf i s = none) : (effectOf i s).mem.wf := by
  have hstore : ∀ bytes : List Byte, s.transferFault bytes.length = none →
      (s.mem.setBytes s.i.toNat bytes).wf := fun bytes hb => by
    rcases (s.transferFault_eq_none_iff _).1 hb with h0 | hr
    · rw [List.length_eq_zero_iff.1 h0]
      exact h
    · exact Memory.wf_setBytes bytes h hr
  cases i with
  | ldB x => exact hstore (bcdDigits (s.getV x)) hf
  | storeRegs x => exact hstore (s.regsUpTo x) (by rwa [length_regsUpTo])
  | ldVxK x => rcases effectOf_ldVxK_cases x s with e | ⟨b, e⟩ <;> rw [e] <;> exact h
  | drw x y n => exact h
  | _ => simpa [effectOf] using h

/-- `pc` after a step is at most 0x10FE: the largest target is that of `JP V0,nnn`, and a skip ends at most at 0x1002.
-/
theorem toNat_pcAfter_le (i : Instr) {s : State} (hpc : s.pc.toNat ≤ 4094) (hret : s.ReturnsFetched)
    (hf : faultOf i s = none) : (pcAfter i s).toNat ≤ 0x10FE := by
  have h2 : (s.pc + 2).toNat ≤ 0x10FE := by rw [BitVec.toNat_add]; simp; omega
  have h4 : (s.pc + 4).toNat ≤ 0x10FE := by rw [BitVec.toNat_add]; simp; omega
  cases i with
  | ret =>
    have h0 : s.sp.val ≠ 0 := fun h0 => by simp [faultOf, h0] at hf
    have hsp := s.sp.isLt
    exact (hret (s.sp.val - 1) (by omega) (by omega)).2.trans (by decide)
  | jp nnn | call nnn =>
    have hn : nnn.toNat < 4096 := nnn.isLt
    exact (toNat_zext16 (by decide) nnn).trans_le (by omega)
  | jpV0 nnn =>
    have hn : nnn.toNat < 4096 := nnn.isLt
    have hb : (s.getV 0).toNat < 256 := (s.getV 0).isLt
    exact (toNat_zext16_add_zext16 nnn (s.getV 0)).trans_le (by omega)
  | seImm _ _ | sneImm _ _ | seReg _ _ | sneReg _ _ | skp _ | sknp _ =>
    rw [pcAfter]
    split <;> assumption
  | ldVxK x =>
    rw [pcAfter]
    split
    · omega
    · exact h2
  | _ => exact h2

/-- Live return addresses after an effect: only CALL pushes one, the address after itself. -/
theorem returnsFetched_effectOf {i : Instr} {s : State} (h : s.ReturnsFetched) (hf : faultOf i s = none)
    (hpc : 2 ≤ s.pc.toNat ∧ s.pc.toNat ≤ 0x1000) : (effectOf i s).ReturnsFetched := by
  cases i with
  | ret => exact fun k hk hlt => h k hk (hlt.trans_le (Nat.sub_le _ _))
  | call nnn =>
    have hsp : s.sp.val < 16 := (faultOf_call_eq_none_iff nnn s).1 hf
    intro k hk hlt
    have hlt' : k < s.sp.val + 1 := by simpa [effectOf, Nat.mod_eq_of_lt (show s.sp.val + 1 < 17 by omega)] using hlt
    have hget : (effectOf (.call nnn) s).stack[k] = if s.sp.val = k then s.pc else s.stack[k] :=
      Vector.getElem_setIfInBounds hk
    rw [hget]
    split
    · exact hpc
    · exact h k hk (by omega)
  | ldVxK x => rcases effectOf_ldVxK_cases x s with e | ⟨b, e⟩ <;> rw [e] <;> exact h
  | drw x y n => exact h
  | seImm _ _ | sneImm _ _ | seReg _ _ | sneReg _ _ | skp _ | sknp _ =>
    rw [effectOf, State.skipIf_eq]
    exact h
  | _ => exact h

/-! ### The invariant after a fault, a tick and a reset -/

/-- Taking a fault of a real kind keeps the invariant: only the latch and the record change, and they agree. -/
theorem inv_latchFault {s : State} (h : s.Inv) {k : FaultKind} (hk : k ≠ .none) (w : Word) (a : Nat) :
    (s.latchFault k w a).Inv := by
  cases hh : s.halted with
  | true => rwa [State.latchFault_of_halted s hh]
  | false =>
    obtain ⟨hmem, -, hpc, hret⟩ := h
    rw [State.latchFault_of_running s hh]
    exact ⟨hmem, ⟨nofun, fun _ => ⟨hk, rfl, rfl⟩⟩, hpc, hret⟩

/-- The invariant does not speak of the timers or of `display_changed`. -/
theorem inv_tick {s : State} (h : s.Inv) : s.tick.Inv := h

theorem inv_setDisplayChanged {s : State} (h : s.Inv) (b : Bool) : (s.setDisplayChanged b).Inv := h

/-- The reset state has the invariant, whatever the model's own count of draws. -/
theorem inv_resetMove (s : State) : (resetMove s).Inv :=
  ⟨Memory.wf_nil, ⟨fun _ => rfl, nofun⟩, show Config.resetPc.toNat ≤ 0x10FE by decide,
    fun k _ h => absurd h (Nat.not_lt_zero k)⟩

theorem inv_loadMove {s : State} (h : s.Inv) (address : Nat) (bytes : List Byte) : (loadMove address bytes s).Inv := by
  rw [loadMove]
  split
  · exact h
  · split
    · exact inv_latchFault h (by decide) 0 0
    · obtain ⟨hmem, hfault, hpc, hret⟩ := h
      exact ⟨Memory.wf_setBytes bytes hmem (by omega), hfault, hpc, hret⟩

theorem inv_setKeysMove {s : State} (h : s.Inv) (k : Keys) : (setKeysMove k s).Inv := by
  rw [setKeysMove]
  split <;> exact h

/-! ### The obligations -/

/-- Settles O41: the reset state is what the driver's RESET leaves of it. -/
theorem resetHasTheInvariant : Obligations.ResetHasTheInvariant := inv_resetMove State.reset

/-- Settles O42: a fault changes the latch and the record alone, and an effect keeps each part of the invariant, the
`pc` bound by way of the return addresses. -/
theorem stepKeepsTheInvariant : Obligations.StepKeepsTheInvariant := by
  intro s t h hstep
  cases hrun : s.halted with
  | true =>
    rw [step_of_halted hrun] at hstep
    cases hstep
    exact h
  | false =>
    rcases step_next_cases hrun hstep with ⟨k, w, a, rfl, hk, -⟩ | ⟨i, hfetch, hf, rfl, ht, hfault⟩
    · exact inv_latchFault h hk w a
    · obtain ⟨hmem, ⟨hclear, -⟩, -, hret⟩ := h
      have hpc : s.pc.toNat ≤ 4094 := State.pc_le_of_run hfetch
      have hpc2 : s.advance.pc.toNat = s.pc.toNat + 2 := State.toNat_advance_pc hpc
      refine ⟨wf_effectOf hmem hf, ⟨fun _ => hfault.trans (hclear hrun), fun hh => ?_⟩, ?_, ?_⟩
      · rw [ht] at hh
        cases hh
      · rw [effectOf_advance_pc]
        exact toNat_pcAfter_le i hpc hret (by rwa [← faultOf_advance])
      · exact returnsFetched_effectOf (s := s.advance) hret hf (by omega)

/-- The steps and the TICK of a FRAME keep the invariant. -/
theorem inv_frameSteps : ∀ (n : Nat) {s t : State}, s.Inv → frameSteps n s = .next t → t.Inv
  | 0, s, t, h, hframe => by
    cases hframe
    exact inv_tick h
  | n + 1, s, t, h, hframe => by
    obtain ⟨u, hstep⟩ := step_total s
    have hu : u.Inv := stepKeepsTheInvariant s u h hstep
    rw [frameSteps_succ n hstep] at hframe
    split at hframe
    · cases hframe
      exact hu
    · exact inv_frameSteps n hu hframe

/-- Settles O43: each move keeps the invariant, a FRAME by induction on its steps. -/
theorem everyMoveKeepsTheInvariant : Obligations.EveryMoveKeepsTheInvariant := by
  intro m s t h hrun
  cases m with
  | reset => cases hrun; exact inv_resetMove s
  | load address bytes => cases hrun; exact inv_loadMove h address bytes
  | setKeys k => cases hrun; exact inv_setKeysMove h k
  | step => exact stepKeepsTheInvariant s t h hrun
  | frame n =>
    change frame n s = .next t at hrun
    cases hh : s.halted with
    | true =>
      rw [frame_of_halted hh] at hrun
      cases hrun
      exact h
    | false =>
      rw [frame_of_running hh] at hrun
      exact inv_frameSteps n (inv_setDisplayChanged h false) hrun

end Sys2Proof.Machine
end

section
/-! SUPPORT. Proofs of the statements about the encoding (30_encoding.md): the decoder and the encoder are inverse,
the opcode map selects what the decoder decodes, and which words are illegal. -/

namespace Sys2Proof

/-! ### A word from the fields that its instruction reads -/

theorem encodeA_of_fields {w : Word} {op : Nibble} (hop : fieldOp w = op) : encodeA op (fieldNnn w) = w := by
  rw [← hop, encodeA_fields]

theorem encodeXK_of_fields {w : Word} {op : Nibble} {kk : Byte} (hop : fieldOp w = op) (hkk : fieldKk w = kk) :
    encodeXK op (fieldX w) kk = w := by
  rw [← hop, ← hkk, encodeXK_fields]

theorem encodeXYN_of_fields {w : Word} {op n : Nibble} (hop : fieldOp w = op) (hn : fieldN w = n) :
    encodeXYN op (fieldX w) (fieldY w) n = w := by
  rw [← hop, ← hn, encodeXYN_fields]

/-! ### Each family decodes its own words -/

theorem encode_of_decodeSys {w : Word} {i : Instr} (hop : fieldOp w = 0) (h : decodeSys w = .insn i) :
    encode i = w := by
  unfold decodeSys at h
  split at h
  · next hn =>
    cases h
    rw [← encodeA_of_fields hop, hn]
    rfl
  · split at h
    · next hn =>
      cases h
      rw [← encodeA_of_fields hop, hn]
      rfl
    · cases h

theorem encode_of_decodeSeReg {w : Word} {i : Instr} (hop : fieldOp w = 5) (h : decodeSeReg w = .insn i) :
    encode i = w := by
  unfold decodeSeReg at h
  split at h
  · next hn =>
    cases h
    exact encodeXYN_of_fields hop hn
  · cases h

theorem encode_of_decodeSneReg {w : Word} {i : Instr} (hop : fieldOp w = 9) (h : decodeSneReg w = .insn i) :
    encode i = w := by
  unfold decodeSneReg at h
  split at h
  · next hn =>
    cases h
    exact encodeXYN_of_fields hop hn
  · cases h

theorem encode_of_decodeAlu {w : Word} {i : Instr} (hop : fieldOp w = 8) (h : decodeAlu w = .insn i) :
    encode i = w := by
  unfold decodeAlu at h
  split at h <;> cases h <;> exact encodeXYN_of_fields hop ‹_›

theorem encode_of_decodeKey {w : Word} {i : Instr} (hop : fieldOp w = 0xE) (h : decodeKey w = .insn i) :
    encode i = w := by
  unfold decodeKey at h
  split at h <;> cases h <;> exact encodeXK_of_fields hop ‹_›

theorem encode_of_decodeMisc {w : Word} {i : Instr} (hop : fieldOp w = 0xF) (h : decodeMisc w = .insn i) :
    encode i = w := by
  unfold decodeMisc at h
  split at h <;> cases h <;> exact encodeXK_of_fields hop ‹_›

/-! ### What each family answers for an illegal word -/

theorem decodeSys_eq_illegal_iff (w : Word) (c : IllegalClass) :
    decodeSys w = .illegal c ↔ IllegalClass.sysSpace = c ∧ fieldNnn w ≠ 0x0E0 ∧ fieldNnn w ≠ 0x0EE := by
  unfold decodeSys
  split_ifs <;> simp_all

theorem decodeSeReg_eq_illegal_iff (w : Word) (c : IllegalClass) :
    decodeSeReg w = .illegal c ↔ IllegalClass.seLowNibble = c ∧ fieldN w ≠ 0 := by
  unfold decodeSeReg
  split <;> simp_all

theorem decodeSneReg_eq_illegal_iff (w : Word) (c : IllegalClass) :
    decodeSneReg w = .illegal c ↔ IllegalClass.sneLowNibble = c ∧ fieldN w ≠ 0 := by
  unfold decodeSneReg
  split <;> simp_all

/-- The low nibbles that name no instruction of family 8 are the seven others. -/
theorem decodeAlu_eq_illegal_iff (w : Word) (c : IllegalClass) :
    decodeAlu w = .illegal c ↔ IllegalClass.aluLowNibble = c ∧ fieldN w ∈ [8, 9, 0xA, 0xB, 0xC, 0xD, 0xF] := by
  have hrest : ∀ n : Nibble, n ∈ [8, 9, 0xA, 0xB, 0xC, 0xD, 0xF] ↔ n ∉ [0, 1, 2, 3, 4, 5, 6, 7, 0xE] := by decide
  rw [hrest]
  unfold decodeAlu
  split <;> simp_all

theorem decodeKey_eq_illegal_iff (w : Word) (c : IllegalClass) :
    decodeKey w = .illegal c ↔ IllegalClass.keyLowByte = c ∧ fieldKk w ∉ [0x9E, 0xA1] := by
  unfold decodeKey
  split <;> simp_all

theorem decodeMisc_eq_illegal_iff (w : Word) (c : IllegalClass) :
    decodeMisc w = .illegal c ↔
      IllegalClass.miscLowByte = c ∧ fieldKk w ∉ [0x07, 0x0A, 0x15, 0x18, 0x1E, 0x29, 0x33, 0x55, 0x65] := by
  unfold decodeMisc
  split <;> simp_all

/-! ### The decoder by its families -/

theorem decode_of_op5 {w : Word} (h : fieldOp w = 5) : decode w = decodeSeReg w := by simp [decode, h]

theorem decode_of_op8 {w : Word} (h : fieldOp w = 8) : decode w = decodeAlu w := by simp [decode, h]

theorem decode_of_op9 {w : Word} (h : fieldOp w = 9) : decode w = decodeSneReg w := by simp [decode, h]

theorem decode_of_opE {w : Word} (h : fieldOp w = 0xE) : decode w = decodeKey w := by simp [decode, h]

theorem decode_of_opF {w : Word} (h : fieldOp w = 0xF) : decode w = decodeMisc w := by simp [decode, h]

/-- The arms of the decoder: one instruction for the whole top nibble, or a family with a secondary key. -/
theorem decode_arms (w : Word) :
    (fieldOp w ∉ [0, 5, 8, 9, 0xE, 0xF] ∧ ∃ i, decode w = .insn i ∧ encode i = w) ∨
    (fieldOp w = 0 ∧ decode w = decodeSys w) ∨ (fieldOp w = 5 ∧ decode w = decodeSeReg w) ∨
    (fieldOp w = 9 ∧ decode w = decodeSneReg w) ∨ (fieldOp w = 8 ∧ decode w = decodeAlu w) ∨
    (fieldOp w = 0xE ∧ decode w = decodeKey w) ∨ (fieldOp w = 0xF ∧ decode w = decodeMisc w) := by
  unfold decode
  split
  case h_2 hop | h_3 hop | h_11 hop | h_12 hop =>
    exact .inl ⟨by rw [hop]; decide, _, rfl, encodeA_of_fields hop⟩
  case h_4 hop | h_5 hop | h_7 hop | h_8 hop | h_13 hop =>
    exact .inl ⟨by rw [hop]; decide, _, rfl, encodeXK_of_fields hop rfl⟩
  case h_14 hop => exact .inl ⟨by rw [hop]; decide, _, rfl, encodeXYN_of_fields hop rfl⟩
  case h_1 hop => exact .inr (.inl ⟨hop, rfl⟩)
  case h_6 hop => exact .inr (.inr (.inl ⟨hop, rfl⟩))
  case h_10 hop => exact .inr (.inr (.inr (.inl ⟨hop, rfl⟩)))
  case h_9 hop => exact .inr (.inr (.inr (.inr (.inl ⟨hop, rfl⟩))))
  case h_15 hop => exact .inr (.inr (.inr (.inr (.inr (.inl ⟨hop, rfl⟩)))))
  case h_16 =>
    have hlast : ∀ n : Nibble, n ∉ [0, 1, 2, 3, 4, 5, 6, 7, 8, 9, 0xA, 0xB, 0xC, 0xD, 0xE] → n = 0xF := by decide
    have hop : fieldOp w = 0xF := hlast _ (by
      simp only [List.mem_cons, List.not_mem_nil, or_false, not_or]
      and_intros <;> assumption)
    exact .inr (.inr (.inr (.inr (.inr (.inr ⟨hop, rfl⟩)))))

/-- Outside the six families with a secondary key no word is illegal. -/
theorem decode_ne_illegal_of_op {w : Word} (hop : fieldOp w ∉ [0, 5, 8, 9, 0xE, 0xF]) (c : IllegalClass) :
    decode w ≠ .illegal c := by
  rcases decode_arms w with ⟨-, i, e, -⟩ | ⟨h, -⟩ | ⟨h, -⟩ | ⟨h, -⟩ | ⟨h, -⟩ | ⟨h, -⟩ | ⟨h, -⟩
  case inl =>
    rw [e]
    exact nofun
  all_goals exact absurd (by rw [h]; decide) hop

/-- The fields of the word of an instruction are its operands, so that the arm of its family gives them back. -/
theorem decode_encode (i : Instr) : decode (encode i) = .insn i := by
  cases i with
  | cls | ret => rfl
  | jp _ | call _ | ldI _ | jpV0 _ => simp [decode, encode]
  | seImm _ _ | sneImm _ _ | ldImm _ _ | addImm _ _ | rnd _ _ => simp [decode, encode]
  | drw _ _ _ => simp [decode, encode]
  | seReg _ _ => simp [decode_of_op5, encode, decodeSeReg]
  | sneReg _ _ => simp [decode_of_op9, encode, decodeSneReg]
  | skp _ | sknp _ => simp [decode_of_opE, encode, decodeKey]
  | ldVxDt _ | ldVxK _ | ldDtVx _ | ldStVx _ | addI _ | ldF _ | ldB _ | storeRegs _ | loadRegs _ =>
    simp [decode_of_opF, encode, decodeMisc]
  | ldReg _ _ | orReg _ _ | andReg _ _ | xorReg _ _ | addReg _ _ | subReg _ _ | shr _ _ | subnReg _ _ | shl _ _ =>
    simp [decode_of_op8, encode, decodeAlu]

/-- A word is illegal exactly in one of the six families with a secondary key, and as that family says. -/
theorem decode_eq_illegal_iff (w : Word) (c : IllegalClass) :
    decode w = .illegal c ↔
      (fieldOp w = 0 ∧ decodeSys w = .illegal c) ∨ (fieldOp w = 5 ∧ decodeSeReg w = .illegal c) ∨
      (fieldOp w = 9 ∧ decodeSneReg w = .illegal c) ∨ (fieldOp w = 8 ∧ decodeAlu w = .illegal c) ∨
      (fieldOp w = 0xE ∧ decodeKey w = .illegal c) ∨ (fieldOp w = 0xF ∧ decodeMisc w = .illegal c) := by
  rcases decode_arms w with ⟨hop, -⟩ | ⟨hop, e⟩ | ⟨hop, e⟩ | ⟨hop, e⟩ | ⟨hop, e⟩ | ⟨hop, e⟩ | ⟨hop, e⟩
  case inl =>
    refine iff_of_false (decode_ne_illegal_of_op hop c) ?_
    rintro (⟨h, -⟩ | ⟨h, -⟩ | ⟨h, -⟩ | ⟨h, -⟩ | ⟨h, -⟩ | ⟨h, -⟩) <;> exact absurd (by rw [h]; decide) hop
  all_goals simp [e, hop]

/-! ### The opcode map -/

/-- The word of every instruction selects the row of its mnemonic and format. -/
theorem exists_row_selects_encode (i : Instr) : Laws.InMap.Statement i := by
  cases i
  exacts [Laws.InMap.cls, Laws.InMap.ret, Laws.InMap.jp _, Laws.InMap.call _, Laws.InMap.seImm _ _,
    Laws.InMap.sneImm _ _, Laws.InMap.seReg _ _, Laws.InMap.ldImm _ _, Laws.InMap.addImm _ _, Laws.InMap.ldReg _ _,
    Laws.InMap.orReg _ _, Laws.InMap.andReg _ _, Laws.InMap.xorReg _ _, Laws.InMap.addReg _ _, Laws.InMap.subReg _ _,
    Laws.InMap.shr _ _, Laws.InMap.subnReg _ _, Laws.InMap.shl _ _, Laws.InMap.sneReg _ _, Laws.InMap.ldI _,
    Laws.InMap.jpV0 _, Laws.InMap.rnd _ _, Laws.InMap.drw _ _ _, Laws.InMap.skp _, Laws.InMap.sknp _,
    Laws.InMap.ldVxDt _, Laws.InMap.ldVxK _, Laws.InMap.ldDtVx _, Laws.InMap.ldStVx _, Laws.InMap.addI _,
    Laws.InMap.ldF _, Laws.InMap.ldB _, Laws.InMap.storeRegs _, Laws.InMap.loadRegs _]

/-- No two rows of the opcode map have the same mnemonic. -/
theorem opcodeMap_mnemonic_inj : ∀ r ∈ opcodeMap, ∀ r' ∈ opcodeMap, r.mnemonic = r'.mnemonic → r = r' := by decide

/-- The values of two rows differ under both masks. -/
theorem opcodeMap_disjoint : ∀ r ∈ opcodeMap, ∀ r' ∈ opcodeMap, r.value &&& r'.mask = r'.value &&& r.mask → r = r' := by
  decide

/-- No word selects two rows: under both masks it would agree with both values. -/
theorem row_eq_of_selects {r r' : OpcodeRow} (hr : r ∈ opcodeMap) (hr' : r' ∈ opcodeMap) {w : Word}
    (h : r.selects w) (h' : r'.selects w) : r = r' := by
  refine opcodeMap_disjoint r hr r' hr' ?_
  rw [← h, ← h', BitVec.and_assoc, BitVec.and_assoc, BitVec.and_comm r.mask]

theorem fieldOp_of_maskA {w : Word} {op : Nibble} (h : w &&& 0xF000 = encodeA op 0) : fieldOp w = op := by
  rw [and_maskA] at h
  exact ((encodeA_inj ..).1 h).1

theorem fields_of_maskXY {w : Word} {op n : Nibble} (h : w &&& 0xF00F = encodeXYN op 0 0 n) :
    fieldOp w = op ∧ fieldN w = n := by
  rw [and_maskXY] at h
  obtain ⟨hop, -, -, hn⟩ := (encodeXYN_inj ..).1 h
  exact ⟨hop, hn⟩

theorem fields_of_maskX {w : Word} {op : Nibble} {kk : Byte} (h : w &&& 0xF0FF = encodeXK op 0 kk) :
    fieldOp w = op ∧ fieldKk w = kk := by
  rw [and_maskX] at h
  obtain ⟨hop, -, hkk⟩ := (encodeXK_inj ..).1 h
  exact ⟨hop, hkk⟩

/-- A row of the opcode map has one of the four masks of R65, and its value names an instruction. -/
def OpcodeRow.Legal (r : OpcodeRow) : Prop :=
  (r.mask = 0xFFFF ∧ (r.value = 0x00E0 ∨ r.value = 0x00EE)) ∨
  (r.mask = 0xF000 ∧ r.value = encodeA (fieldOp r.value) 0 ∧ fieldOp r.value ∉ [0, 5, 8, 9, 0xE, 0xF]) ∨
  (r.mask = 0xF00F ∧ r.value = encodeXYN (fieldOp r.value) 0 0 (fieldN r.value) ∧
    ((fieldOp r.value ∈ [5, 9] ∧ fieldN r.value = 0) ∨
      (fieldOp r.value = 8 ∧ fieldN r.value ∉ [8, 9, 0xA, 0xB, 0xC, 0xD, 0xF]))) ∨
  (r.mask = 0xF0FF ∧ r.value = encodeXK (fieldOp r.value) 0 (fieldKk r.value) ∧
    ((fieldOp r.value = 0xE ∧ fieldKk r.value ∈ [0x9E, 0xA1]) ∨
      (fieldOp r.value = 0xF ∧ fieldKk r.value ∈ [0x07, 0x0A, 0x15, 0x18, 0x1E, 0x29, 0x33, 0x55, 0x65])))

theorem opcodeMap_legal : ∀ r ∈ opcodeMap, r.Legal := by
  unfold OpcodeRow.Legal
  decide

/-- A word that selects a row of the opcode map is not illegal. -/
theorem decode_ne_illegal_of_selects {r : OpcodeRow} (hr : r ∈ opcodeMap) {w : Word} (h : r.selects w)
    (c : IllegalClass) : decode w ≠ .illegal c := by
  unfold OpcodeRow.selects at h
  rcases opcodeMap_legal r hr with ⟨hm, hv⟩ | ⟨hm, hv, hop⟩ | ⟨hm, hv, hkey⟩ | ⟨hm, hv, hkey⟩
  · rw [hm, and_maskZ] at h
    have hcls : decode 0x00E0 = .insn .cls := rfl
    have hret : decode 0x00EE = .insn .ret := rfl
    rcases hv with hv | hv <;> rw [h, hv]
    · rw [hcls]
      exact nofun
    · rw [hret]
      exact nofun
  · rw [hm, hv] at h
    rw [← fieldOp_of_maskA h] at hop
    exact decode_ne_illegal_of_op hop c
  · rw [hm, hv] at h
    obtain ⟨ho, hn⟩ := fields_of_maskXY h
    rw [← ho, ← hn] at hkey
    rcases hkey with ⟨hop, hkey⟩ | ⟨hop, hkey⟩
    · rcases List.mem_pair.1 hop with hop | hop
      · rw [decode_of_op5 hop, Ne, decodeSeReg_eq_illegal_iff]
        exact fun ⟨_, hn⟩ => hn hkey
      · rw [decode_of_op9 hop, Ne, decodeSneReg_eq_illegal_iff]
        exact fun ⟨_, hn⟩ => hn hkey
    · rw [decode_of_op8 hop, Ne, decodeAlu_eq_illegal_iff]
      exact fun ⟨_, hn⟩ => hkey hn
  · rw [hm, hv] at h
    obtain ⟨ho, hk⟩ := fields_of_maskX h
    rw [← ho, ← hk] at hkey
    rcases hkey with ⟨hop, hkey⟩ | ⟨hop, hkey⟩
    · rw [decode_of_opE hop, Ne, decodeKey_eq_illegal_iff]
      exact fun ⟨_, hk⟩ => hk hkey
    · rw [decode_of_opF hop, Ne, decodeMisc_eq_illegal_iff]
      exact fun ⟨_, hk⟩ => hk hkey

/-! ### The obligations -/

/-- Settles O46: every arm of the decoder inverts the word of its instruction, and the bytes of a word are the word. -/
theorem decodeOfEncode : Obligations.DecodeOfEncode :=
  fun i => ⟨decode_encode i, (decodeBytes_wordBytes (encode i)).trans (decode_encode i)⟩

/-- Settles O47: each arm of the decoder answers an instruction whose word has the fields of the word decoded. -/
theorem encodeOfDecode : Obligations.EncodeOfDecode := by
  intro w i h
  rcases decode_arms w with ⟨-, j, e, hw⟩ | ⟨hop, e⟩ | ⟨hop, e⟩ | ⟨hop, e⟩ | ⟨hop, e⟩ | ⟨hop, e⟩ | ⟨hop, e⟩
    <;> rw [e] at h
  · cases h
    exact hw
  · exact encode_of_decodeSys hop h
  · exact encode_of_decodeSeReg hop h
  · exact encode_of_decodeSneReg hop h
  · exact encode_of_decodeAlu hop h
  · exact encode_of_decodeKey hop h
  · exact encode_of_decodeMisc hop h

/-- Settles O48: a word that selects a row is legal, and it selects the row of the instruction it decodes to; no word
selects two rows, and no two rows share a mnemonic. -/
theorem opcodeMapAgreesWithDecoder : Obligations.OpcodeMapAgreesWithDecoder := by
  intro r hr w
  constructor
  · intro h
    cases e : decode w with
    | illegal c => exact absurd e (decode_ne_illegal_of_selects hr h c)
    | insn i =>
      obtain ⟨r', hr', hname, hformat, hsel⟩ := exists_row_selects_encode i
      rw [encodeOfDecode w i e] at hsel
      rw [row_eq_of_selects hr hr' h hsel]
      exact ⟨i, rfl, hname.symm, hformat.symm⟩
  · rintro ⟨i, e, hname, -⟩
    obtain ⟨r', hr', hname', -, hsel⟩ := exists_row_selects_encode i
    rw [encodeOfDecode w i e] at hsel
    rwa [opcodeMap_mnemonic_inj r hr r' hr' (hname.symm.trans hname'.symm)]

/-- Settles O49: each class is answered by one family, under the condition of its secondary key. -/
theorem illegalWordsAreTheSixClasses : Obligations.IllegalWordsAreTheSixClasses := by
  intro w
  simp [decode_eq_illegal_iff, decodeSys_eq_illegal_iff, decodeSeReg_eq_illegal_iff, decodeSneReg_eq_illegal_iff,
    decodeAlu_eq_illegal_iff, decodeKey_eq_illegal_iff, decodeMisc_eq_illegal_iff]

/-- Settles O50: the decoder evaluates on each of the seven words. -/
theorem sampleWordsDecode : Obligations.SampleWordsDecode := by
  unfold Obligations.SampleWordsDecode
  decide

end Sys2Proof
end

section
/-! SUPPORT. Proofs of the statements about arithmetic, shifts and the random byte (41_alu.md): the instructions that
write a result and a flag, and RND. -/

namespace Sys2Proof.Machine

open Sys2Proof.Claims

/-! ### The meaning of each instruction, once -/

theorem exec_addReg (x y : Nibble) (s : State) : exec (.addReg x y) s =
    .next (s.setResultAndFlag x (s.getV x + s.getV y) (carryFlag (s.getV x) (s.getV y))) := rfl

theorem exec_subReg (x y : Nibble) (s : State) : exec (.subReg x y) s =
    .next (s.setResultAndFlag x (s.getV x - s.getV y) (greaterFlag (s.getV x) (s.getV y))) := rfl

theorem exec_subnReg (x y : Nibble) (s : State) : exec (.subnReg x y) s =
    .next (s.setResultAndFlag x (s.getV y - s.getV x) (greaterFlag (s.getV y) (s.getV x))) := rfl

theorem exec_shr (x y : Nibble) (s : State) : exec (.shr x y) s =
    .next (s.setResultAndFlag x (s.getV x >>> 1) (lowBitFlag (s.getV x))) := rfl

theorem exec_shl (x y : Nibble) (s : State) : exec (.shl x y) s =
    .next (s.setResultAndFlag x (s.getV x <<< 1) (highBitFlag (s.getV x))) := rfl

theorem exec_rnd (x : Nibble) (kk : Byte) (s : State) :
    exec (.rnd x kk) s = .next ((s.setV x (kk &&& s.drawByte)).countDraw) := rfl

/-! ### Result and flag -/

/-- An instruction whose whole effect is a result and a flag satisfies `WritesResultAndFlag` for their values. -/
theorem writesResultAndFlag_of_exec_eq {i : Instr} {s : State} {x : Nibble} {b : Byte} {c : Bool} {result flag : Nat}
    (he : exec i s = .next (s.setResultAndFlag x b c)) (hb : b.toNat = result) (hc : c.toNat = flag) :
    WritesResultAndFlag i s x result flag := by
  have hflag : (flagByte c).toNat = c.toNat := by cases c <;> rfl
  refine ⟨_, he, fun hx => ?_, ?_, fun q hqx hqf => s.getV_setResultAndFlag_ne b c hqx hqf, rfl⟩
  · rw [s.getV_setResultAndFlag_result b c hx, hb]
  · exact (congrArg BitVec.toNat (s.getV_setResultAndFlag_flagReg x b c)).trans (hflag.trans hc)

/-- A comparison as a flag. -/
theorem toNat_decide (p : Prop) [Decidable p] : (decide p).toNat = if p then 1 else 0 := by
  by_cases h : p <;> simp [h]

theorem toNat_lowBitFlag (a : Byte) : (lowBitFlag a).toNat = a.toNat % 2 := by
  rw [lowBitFlag, BitVec.getLsbD, Nat.testBit_zero, toNat_decide]
  split <;> omega

theorem toNat_highBitFlag (a : Byte) : (highBitFlag a).toNat = a.toNat / 128 := by
  have h : a.toNat < 256 := a.isLt
  rw [highBitFlag, BitVec.getLsbD, Nat.testBit_eq_decide_div_mod_eq, toNat_decide]
  split <;> omega

/-! ### The obligations -/

/-- Settles O11: `BitVec` addition and subtraction wrap, and each flag is a comparison of the operands. -/
theorem arithmeticWrapsAndWritesFlag : Obligations.ArithmeticWrapsAndWritesFlag := by
  intro x y s
  have ha : (s.getV x).toNat < 256 := (s.getV x).isLt
  have hb : (s.getV y).toNat < 256 := (s.getV y).isLt
  refine ⟨writesResultAndFlag_of_exec_eq (exec_addReg x y s) (BitVec.toNat_add ..) (toNat_decide _),
    writesResultAndFlag_of_exec_eq (exec_subReg x y s) ?sub (toNat_decide _),
    writesResultAndFlag_of_exec_eq (exec_subnReg x y s) ?subn (toNat_decide _)⟩
  case sub => rw [BitVec.toNat_sub]; omega
  case subn => rw [BitVec.toNat_sub]; omega

/-- Settles O12: a shift by one halves or doubles, and the bit shifted out is bit 0 or bit 7. -/
theorem shiftsWriteBitShiftedOut : Obligations.ShiftsWriteBitShiftedOut := by
  intro x y s
  refine ⟨writesResultAndFlag_of_exec_eq (exec_shr x y s) ?shr (toNat_lowBitFlag _),
    writesResultAndFlag_of_exec_eq (exec_shl x y s) ?shl (toNat_highBitFlag _)⟩
  case shr => rw [BitVec.toNat_ushiftRight, Nat.shiftRight_eq_div_pow, Nat.pow_one]
  case shl => rw [BitVec.toNat_shiftLeft, Nat.shiftLeft_eq, Nat.pow_one, Nat.mul_comm]

/-- Settles O13: RND is one register write, of the masked draw, and one count of the draw. -/
theorem randomByteIsMasked : Obligations.RandomByteIsMasked := by
  intro x kk s
  exact ⟨_, exec_rnd x kk s, s.getV_setV_same x _, fun q hq => s.getV_setV_ne _ hq, rfl⟩

end Sys2Proof.Machine
end

section
/-! SUPPORT. Proofs of the statements about CALL and RET (40_control_flow.md). -/

namespace Sys2Proof.Machine

theorem exec_call_of_lt (nnn : Addr) {s : State} (h : s.sp.val < 16) : exec (.call nnn) s = .next
    { s with stack := s.stack.set s.sp.val s.pc h, sp := ⟨s.sp.val + 1, by omega⟩, pc := zext16 nnn } := by
  simp only [exec, execCall, s.push_of_lt s.pc h]
  rfl

theorem exec_ret_of_pos {s : State} (h : 0 < s.sp.val) : exec .ret s = .next
    { s with pc := s.stack[s.sp.val - 1]'(by omega), sp := ⟨s.sp.val - 1, by omega⟩ } := by
  simp only [exec, execRet, s.pop_of_pos h]
  rfl

/-- Settles O2: the push below the depth, and the fault of CALL at the depth. -/
theorem callPushesReturnAddress : Obligations.CallPushesReturnAddress := by
  intro nnn s
  exact ⟨fun h => exec_call_of_lt nnn h, fun h hrun => exec_faulted hrun (if_pos h)⟩

/-- Settles O3: the pop of a stack in use, and the fault of RET on an empty one. -/
theorem retPopsReturnAddress : Obligations.RetPopsReturnAddress := by
  intro s
  exact ⟨fun h => exec_ret_of_pos h, fun h hrun => exec_faulted hrun (if_pos h)⟩

/-- Settles O6: RET pops the entry that CALL has pushed, which is the address after the CALL. -/
theorem callThenRetReturns : Obligations.CallThenRetReturns := by
  intro s t nnn hrun hsp hcall hstep hret
  rw [step_of_run hrun hcall, exec_call_of_lt nnn (s := s.advance) hsp] at hstep
  have hrun' : t.halted = false := by
    cases hstep
    exact hrun
  have hpos : 0 < t.advance.sp.val := by
    cases hstep
    exact Nat.succ_pos _
  rw [step_of_run hrun' hret, exec_ret_of_pos hpos]
  cases hstep
  simp

end Sys2Proof.Machine
end

section
/-! SUPPORT. Proofs of the statements about transfers through `I` (42_index_memory.md) and the fetch of what they store
(20_memory.md section 6). -/

namespace Sys2Proof.Machine

/-- Settles O16: the digits are the three bytes of one store. -/
theorem bcdStoresThreeDigits : Obligations.BcdStoresThreeDigits := by
  intro x s h
  have hf : faultOf (.ldB x) s = none := (s.transferFault_eq_none_iff 3).2 (.inr (by omega))
  have hv : (s.getV x).toNat < 256 := (s.getV x).isLt
  have hdigit : ∀ k (hk : k < 3), ((effectOf (.ldB x) s).mem.byteAt (s.effectiveAddr k)) = (bcdDigits (s.getV x))[k] :=
    fun k hk => Memory.byteAt_setBytes_inside _ _ _ hk
  refine ⟨_, exec_of_faultOf_none hf, ?_, ?_, ?_, fun a ha => effectOf_byteAt ha, rfl⟩
  · rw [hdigit 0 (by decide)]
    exact Nat.mod_eq_of_lt (by omega)
  · rw [hdigit 1 (by decide)]
    exact Nat.mod_eq_of_lt (by omega)
  · rw [hdigit 2 (by decide)]
    exact Nat.mod_eq_of_lt (by omega)

/-- Byte `k` of LD [I],Vx is `V[k]`. -/
theorem byteAt_effectOf_storeRegs {x k : Nibble} (h : k.toNat ≤ x.toNat) (s : State) :
    (effectOf (.storeRegs x) s).mem.byteAt (s.effectiveAddr k.toNat) = s.getV k := by
  have hk : k.toNat < (s.regsUpTo x).length := by rw [length_regsUpTo]; omega
  refine (Memory.byteAt_setBytes_inside s.mem s.i.toNat (s.regsUpTo x) hk).trans ?_
  exact Option.some_inj.1 ((List.getElem?_eq_getElem hk).symm.trans (getElem?_regsUpTo s x k h))

/-- Settles O17: the registers are the bytes of one store. -/
theorem storeRegistersFromV0 : Obligations.StoreRegistersFromV0 := by
  intro x s h
  have hf : faultOf (.storeRegs x) s = none := (s.transferFault_eq_none_iff (x.toNat + 1)).2 (.inr (by omega))
  exact ⟨_, exec_of_faultOf_none hf, fun k hk => byteAt_effectOf_storeRegs hk s, fun a ha => effectOf_byteAt ha, rfl⟩

/-- Settles O18: register `k` takes byte `k` of one read. -/
theorem loadRegistersFromV0 : Obligations.LoadRegistersFromV0 := by
  intro x s h
  have hf : faultOf (.loadRegs x) s = none := (s.transferFault_eq_none_iff (x.toNat + 1)).2 (.inr (by omega))
  refine ⟨_, exec_of_faultOf_none hf, fun k hk => ?_, fun k hk => ?_, rfl⟩
  · exact getElem_writeFrom_bytesFrom s.v s.mem s.i.toNat k.isLt (Nat.lt_succ_of_le hk)
  · exact effectOf_getV (Nat.not_le_of_lt hk)

/-- Settles O19: each of the four is past the limit of its transfer. -/
theorem transferPastMemoryFaults : Obligations.TransferPastMemoryFaults := by
  intro x y n s hrun
  refine ⟨fun h => ?ldB, fun h => ?storeRegs, fun h => ?loadRegs, fun hn h => ?drw⟩
  case ldB => exact exec_faulted (i := .ldB x) hrun (s.transferFault_of_gt (n := 3) (by decide) (by omega))
  case storeRegs =>
    exact exec_faulted (i := .storeRegs x) hrun (s.transferFault_of_gt (n := x.toNat + 1) (Nat.succ_pos _) (by omega))
  case loadRegs =>
    exact exec_faulted (i := .loadRegs x) hrun (s.transferFault_of_gt (n := x.toNat + 1) (Nat.succ_pos _) (by omega))
  case drw => exact exec_faulted (i := .drw x y n) hrun (s.transferFault_of_gt hn h)

/-- Settles O22: a store that completes is in range, so the two bytes it has put at `pc` are fetched from there. -/
theorem storeIsSeenByNextFetch : Obligations.StoreIsSeenByNextFetch := by
  intro x k k' s t hrun h ht hk hk' hpc
  rcases exec_next_cases h with ⟨hf, rfl⟩ | ⟨f, -, rfl⟩
  · have hr : x.toNat + 1 = 0 ∨ s.i.toNat + (x.toNat + 1) ≤ 4096 := (s.transferFault_eq_none_iff _).1 hf
    have hpc' : (effectOf (.storeRegs x) s).pc.toNat + 1 = s.effectiveAddr k'.toNat := by
      rw [hpc, hk]
      rfl
    have hle : (effectOf (.storeRegs x) s).pc.toNat ≤ 4094 := by
      rw [hpc]
      simp only [State.effectiveAddr]
      omega
    rw [State.fetchWord_of_le _ hle, hpc', hpc, byteAt_effectOf_storeRegs hk', byteAt_effectOf_storeRegs (by omega)]
    rfl
  · rw [State.latchFault_halted] at ht
    cases ht

end Sys2Proof.Machine
end

section
/-! SUPPORT. Proof that canonical memory is its bytes (20_memory.md section 1). -/

namespace Sys2Proof.Machine

/-- An address below every listed one reads as after reset. -/
theorem Memory.byteAt_of_lt {m : Memory} {a : Nat} (h : ∀ c ∈ m, a < c.1) : m.byteAt a = resetByte a := by
  induction m with
  | nil => rfl
  | cons c m ih =>
    have hne : ¬ c.1 = a := (h c List.mem_cons_self).ne'
    rw [Memory.byteAt, if_neg hne]
    exact ih fun d hd => h d (List.mem_cons_of_mem c hd)

theorem Memory.byteAt_cons_same (c : Host.Cell) (m : Memory) : Memory.byteAt (c :: m) c.1 = c.2 := if_pos rfl

theorem Memory.byteAt_cons_ne {c : Host.Cell} (m : Memory) {a : Nat} (h : a ≠ c.1) :
    Memory.byteAt (c :: m) a = Memory.byteAt m a := if_neg h.symm

theorem Memory.wf_tail {c : Host.Cell} {m : Memory} (h : Memory.wf (c :: m)) : Memory.wf m :=
  ⟨h.1.of_cons, fun d hd => h.2 d (List.mem_cons_of_mem c hd)⟩

/-- A memory whose first cell lies below every cell of another does not read the same. -/
theorem Memory.byteAt_ne_of_lt {c : Host.Cell} {m m' : Memory} (h : Memory.wf (c :: m)) (h' : ∀ d ∈ m', c.1 < d.1) :
    ¬ ∀ a, a < 4096 → Memory.byteAt (c :: m) a = Memory.byteAt m' a := by
  intro hsame
  obtain ⟨hlt, hne⟩ := h.2 c List.mem_cons_self
  refine hne ?_
  rw [← Memory.byteAt_of_lt h', ← hsame c.1 hlt, Memory.byteAt_cons_same]

/-- Settles O21: by induction on both lists; the first cells have the same address, since the lower of the two is seen
in one memory only, and the same byte. -/
theorem canonicalMemoryIsItsBytes : Obligations.CanonicalMemoryIsItsBytes := by
  intro m
  induction m with
  | nil =>
    intro m' _ h' hsame
    cases m' with
    | nil => rfl
    | cons d m' => exact absurd (fun a ha => (hsame a ha).symm) (Memory.byteAt_ne_of_lt h' nofun)
  | cons c m ih =>
    intro m' h h' hsame
    cases m' with
    | nil => exact absurd hsame (Memory.byteAt_ne_of_lt h nofun)
    | cons d m' =>
      have hc := List.pairwise_cons.1 h.1
      have hd := List.pairwise_cons.1 h'.1
      rcases Nat.lt_trichotomy c.1 d.1 with hlt | heq | hgt
      · refine absurd hsame (Memory.byteAt_ne_of_lt h fun e he => ?_)
        rcases List.mem_cons.1 he with rfl | he
        · exact hlt
        · exact hlt.trans (hd.1 e he)
      · have hbyte : c.2 = d.2 := by
          have := hsame c.1 (h.2 c List.mem_cons_self).1
          rwa [Memory.byteAt_cons_same, heq, Memory.byteAt_cons_same] at this
        obtain rfl : c = d := Prod.ext heq hbyte
        have htail : m = m' := ih m' (Memory.wf_tail h) (Memory.wf_tail h') fun a ha => by
          by_cases hac : a = c.1
          · rw [hac, Memory.byteAt_of_lt hc.1, Memory.byteAt_of_lt hd.1]
          · rw [← Memory.byteAt_cons_ne m hac, hsame a ha, Memory.byteAt_cons_ne m' hac]
        rw [htail]
      · refine absurd (fun a ha => (hsame a ha).symm) (Memory.byteAt_ne_of_lt h' fun e he => ?_)
        rcases List.mem_cons.1 he with rfl | he
        · exact hgt
        · exact hgt.trans (hc.1 e he)

end Sys2Proof.Machine
end

section
/-! SUPPORT. Proof of the statement about key skips (44_keys_timers.md). -/

namespace Sys2Proof.Machine

theorem State.skipIf_eq_with (s : State) (c : Bool) : s.skipIf c = { s with pc := if c then s.pc + 2 else s.pc } :=
  s.skipIf_eq c

/-- Settles O27: within the sixteen keys each of the two is one skip on the key, above them one fault. -/
theorem keySkipsReadTheSnapshot : Obligations.KeySkipsReadTheSnapshot := by
  intro x s
  refine ⟨fun h => ⟨?skp, ?sknp⟩, fun h hrun => ⟨?skpFault, ?sknpFault⟩⟩
  case skp =>
    rw [exec_of_faultOf_none (i := .skp x) (s.keyFault_of_lt h), effectOf, Vector.getElem?_eq_getElem h,
      State.skipIf_eq_with]
    cases s.keys[(s.getV x).toNat] <;> rfl
  case sknp =>
    rw [exec_of_faultOf_none (i := .sknp x) (s.keyFault_of_lt h), effectOf, Vector.getElem?_eq_getElem h,
      State.skipIf_eq_with]
    cases s.keys[(s.getV x).toNat] <;> rfl
  case skpFault =>
    rw [exec_faulted (i := .skp x) hrun (s.keyFault_of_gt h), BitVec.ofNat_toNat]
    rfl
  case sknpFault =>
    rw [exec_faulted (i := .sknp x) hrun (s.keyFault_of_gt h), BitVec.ofNat_toNat]
    rfl

end Sys2Proof.Machine
end

section
/-! SUPPORT. Proofs of the statements about DRW (43_display.md): a sprite as the list of the pixels that its bits of 1
flip. They are different pixels, so each is flipped once and its collision is with the display before the draw. -/

namespace Sys2Proof.Machine

open Sys2Proof.Claims

/-! ### Flipping a list of pixels -/

/-- Flip one pixel and collide if it was on. -/
def flipPixel (d : Framebuffer × Bool) (p : Fin 32 × Fin 64) : Framebuffer × Bool :=
  (d.1.flip p.1 p.2, d.2 || d.1.pixel p.1 p.2)

/-- Flipping different pixels inverts each of them and no other. -/
theorem pixel_foldl_flipPixel : ∀ (ps : List (Fin 32 × Fin 64)) (d : Framebuffer × Bool), ps.Nodup → ∀ Y X,
    (ps.foldl flipPixel d).1.pixel Y X = if (Y, X) ∈ ps then !d.1.pixel Y X else d.1.pixel Y X
  | [], _, _, _, _ => rfl
  | p :: ps, d, h, Y, X => by
    obtain ⟨hp, hps⟩ := List.nodup_cons.1 h
    rw [List.foldl_cons, pixel_foldl_flipPixel ps _ hps, flipPixel, Framebuffer.pixel_flip]
    by_cases hsame : (Y, X) = p
    · subst hsame
      simp [hp]
    · have hne : ¬ (Y = p.1 ∧ X = p.2) := fun ⟨hY, hX⟩ => hsame (Prod.ext hY hX)
      simp [hsame, hne]

/-- Flipping different pixels collides exactly when one of them was on. -/
theorem collision_foldl_flipPixel : ∀ (ps : List (Fin 32 × Fin 64)) (d : Framebuffer × Bool), ps.Nodup →
    ((ps.foldl flipPixel d).2 = true ↔ d.2 = true ∨ ∃ p ∈ ps, d.1.pixel p.1 p.2 = true)
  | [], _, _ => by simp
  | p :: ps, d, h => by
    obtain ⟨hp, hps⟩ := List.nodup_cons.1 h
    have hother : ∀ q ∈ ps, (d.1.flip p.1 p.2).pixel q.1 q.2 = d.1.pixel q.1 q.2 := fun q hq => by
      have hne : ¬ (q.1 = p.1 ∧ q.2 = p.2) := fun ⟨hY, hX⟩ => hp (Prod.ext hY hX ▸ hq)
      rw [Framebuffer.pixel_flip, if_neg hne]
    have hex : (∃ q ∈ ps, (d.1.flip p.1 p.2).pixel q.1 q.2 = true) ↔ ∃ q ∈ ps, d.1.pixel q.1 q.2 = true :=
      exists_congr fun q => and_congr_right fun hq => by rw [hother q hq]
    rw [List.foldl_cons, collision_foldl_flipPixel ps _ hps, flipPixel, hex]
    simp [or_assoc]

/-! ### The pixels of a sprite -/

/-- The pixels under the bits of 1 of a sprite row. -/
def rowPixels (row : Byte) (Y : Fin 32) (x0 : Nat) : List (Fin 32 × Fin 64) :=
  ((List.range 8).filter (spriteBit row)).map fun c => (Y, spriteX x0 c)

/-- The pixels under the bits of 1 of the sprite rows from row `r` on. -/
def spritePixels (x0 y0 : Nat) : Nat → List Byte → List (Fin 32 × Fin 64)
  | _, [] => []
  | r, row :: rows => rowPixels row (spriteY y0 r) x0 ++ spritePixels x0 y0 (r + 1) rows

theorem drawRow_eq_foldl (row : Byte) (Y : Fin 32) (x0 : Nat) (d : Framebuffer × Bool) :
    drawRow row Y x0 d = (rowPixels row Y x0).foldl flipPixel d := by
  rw [rowPixels, List.foldl_map, List.foldl_filter]
  rfl

theorem drawRows_eq_foldl (x0 y0 : Nat) : ∀ (rows : List Byte) (r : Nat) (d : Framebuffer × Bool),
    drawRows x0 y0 r rows d = (spritePixels x0 y0 r rows).foldl flipPixel d
  | [], _, _ => rfl
  | row :: rows, r, d => by
    rw [drawRows, drawRows_eq_foldl x0 y0 rows, drawRow_eq_foldl, spritePixels, List.foldl_append]

theorem mem_rowPixels {row : Byte} {Y : Fin 32} {x0 : Nat} {p : Fin 32 × Fin 64} :
    p ∈ rowPixels row Y x0 ↔ ∃ c, c < 8 ∧ spriteBit row c = true ∧ p = (Y, spriteX x0 c) := by
  rw [rowPixels, List.mem_map]
  exact exists_congr fun c => by rw [List.mem_filter, List.mem_range, and_assoc, eq_comm (a := p)]

/-- A pixel of the sprite is under a bit of 1 of one of its rows. -/
theorem mem_spritePixels (x0 y0 : Nat) {p : Fin 32 × Fin 64} : ∀ (rows : List Byte) (r : Nat),
    p ∈ spritePixels x0 y0 r rows ↔
      ∃ j row c, rows[j]? = some row ∧ c < 8 ∧ spriteBit row c = true ∧ p = (spriteY y0 (r + j), spriteX x0 c)
  | [], _ => by simp [spritePixels]
  | row :: rows, r => by
    rw [spritePixels, List.mem_append, mem_rowPixels, mem_spritePixels x0 y0 rows]
    constructor
    · rintro (⟨c, h⟩ | ⟨j, b, c, hj, hc, hbit, hp⟩)
      · exact ⟨0, row, c, rfl, h⟩
      · exact ⟨j + 1, b, c, hj, hc, hbit, by rw [hp, Nat.add_right_comm, Nat.add_assoc]⟩
    · rintro ⟨j, b, c, hj, hc, hbit, hp⟩
      cases j with
      | zero =>
        cases hj
        exact .inl ⟨c, hc, hbit, hp⟩
      | succ j => exact .inr ⟨j, b, c, hj, hc, hbit, by rw [hp, Nat.add_right_comm, Nat.add_assoc]⟩

/-- Eight columns in a row of 64 pixels do not overlap. -/
theorem spriteX_inj {x0 c c' : Nat} (hc : c < 8) (hc' : c' < 8) (h : spriteX x0 c = spriteX x0 c') : c = c' := by
  have h' : (x0 + c) % 64 = (x0 + c') % 64 := congrArg Fin.val h
  omega

/-- Fewer than 32 rows do not overlap. -/
theorem spriteY_ne {y0 r r' : Nat} (h : r < r') (h' : r' < r + 32) : spriteY y0 r ≠ spriteY y0 r' := fun e => by
  have e' : (y0 + r) % 32 = (y0 + r') % 32 := congrArg Fin.val e
  omega

theorem nodup_rowPixels (row : Byte) (Y : Fin 32) (x0 : Nat) : (rowPixels row Y x0).Nodup := by
  refine List.Nodup.map_on ?_ (List.nodup_range.filter _)
  intro c hc c' hc' h
  have hlt : ∀ {c}, c ∈ (List.range 8).filter (spriteBit row) → c < 8 := fun hc =>
    List.mem_range.1 (List.mem_filter.1 hc).1
  exact spriteX_inj (hlt hc) (hlt hc') (Prod.ext_iff.1 h).2

/-- The pixels of a sprite of at most 32 rows are different. -/
theorem nodup_spritePixels (x0 y0 : Nat) : ∀ (rows : List Byte) (r : Nat), rows.length ≤ 32 →
    (spritePixels x0 y0 r rows).Nodup
  | [], _, _ => List.nodup_nil
  | row :: rows, r, h => by
    rw [List.length_cons] at h
    refine List.Nodup.append (nodup_rowPixels _ _ _) (nodup_spritePixels x0 y0 rows (r + 1) (by omega)) ?_
    intro p hp hp'
    obtain ⟨c, -, -, rfl⟩ := mem_rowPixels.1 hp
    obtain ⟨j, b, c', hj, -, -, e⟩ := (mem_spritePixels x0 y0 rows (r + 1)).1 hp'
    have hj' : j < rows.length := (List.getElem?_eq_some_iff.1 hj).1
    exact spriteY_ne (by omega) (by omega) (Prod.ext_iff.1 e).1

/-! ### The sprite of `DRW Vx,Vy,n` -/

/-- The pixels that `DRW Vx,Vy,n` inverts. -/
def drawnPixels (s : State) (x y n : Nibble) : List (Fin 32 × Fin 64) :=
  spritePixels ((s.getV x).toNat % 64) ((s.getV y).toNat % 32) 0 (s.mem.bytesFrom s.i.toNat n.toNat)

theorem nodup_drawnPixels (s : State) (x y n : Nibble) : (drawnPixels s x y n).Nodup := by
  have hn := n.isLt
  exact nodup_spritePixels _ _ _ 0 (by rw [Memory.length_bytesFrom]; omega)

theorem mem_drawnPixels (s : State) (x y n : Nibble) (Y : Fin 32) (X : Fin 64) :
    (Y, X) ∈ drawnPixels s x y n ↔ SpriteCovers s x y n Y X := by
  rw [drawnPixels, mem_spritePixels]
  constructor
  · rintro ⟨r, row, c, hrow, hc, hbit, hp⟩
    have hr : r < n.toNat := by
      have := (List.getElem?_eq_some_iff.1 hrow).1
      rwa [Memory.length_bytesFrom] at this
    rw [Memory.getElem?_bytesFrom _ _ _ _ hr] at hrow
    cases hrow
    rw [Nat.zero_add] at hp
    obtain ⟨hY, hX⟩ := Prod.ext_iff.1 hp
    exact ⟨r, c, hr, hc, congrArg Fin.val hY, congrArg Fin.val hX, hbit⟩
  · rintro ⟨r, c, hr, hc, hY, hX, hbit⟩
    exact ⟨r, _, c, Memory.getElem?_bytesFrom _ _ _ _ hr, hc, hbit,
      Prod.ext (Fin.ext (by rw [Nat.zero_add]; exact hY)) (Fin.ext hX)⟩

/-- DRW of a sprite in memory flips the pixels drawn. -/
theorem exec_drw_of_le {x y n : Nibble} {s : State} (h : n.toNat = 0 ∨ s.i.toNat + n.toNat ≤ 4096) :
    exec (.drw x y n) s = .next (s.showDrawn ((drawnPixels s x y n).foldl flipPixel (s.fb, false))) := by
  have hf : faultOf (.drw x y n) s = none := (s.transferFault_eq_none_iff _).2 h
  rw [exec_of_faultOf_none hf, effectOf, drawSprite, drawRows_eq_foldl]
  rfl

/-- VF after a draw is the collision. -/
theorem showDrawn_getV_flagReg (s : State) (d : Framebuffer × Bool) : (s.showDrawn d).getV 0xF = flagByte d.2 :=
  State.getV_setFlag_flagReg s d.2

/-! ### The obligations -/

/-- Settles O24: the loops flip a list of different pixels, which are those that the sprite covers. -/
theorem drwInvertsExactlyTheSprite : Obligations.DrwInvertsExactlyTheSprite := by
  intro x y n s h
  have hpixel := pixel_foldl_flipPixel (drawnPixels s x y n) (s.fb, false) (nodup_drawnPixels s x y n)
  have hcoll := collision_foldl_flipPixel (drawnPixels s x y n) (s.fb, false) (nodup_drawnPixels s x y n)
  refine ⟨_, exec_drw_of_le h, fun Y X hcov => ?covered, fun Y X hcov => ?uncovered, ?collides, fun hoff => ?clear,
    fun q hq => ?others, rfl, rfl⟩
  case covered => exact (hpixel Y X).trans (if_pos ((mem_drawnPixels ..).2 hcov))
  case uncovered => exact (hpixel Y X).trans (if_neg fun hm => hcov ((mem_drawnPixels ..).1 hm))
  case collides =>
    rintro ⟨Y, X, hcov, hon⟩
    rw [showDrawn_getV_flagReg, hcoll.2 (.inr ⟨(Y, X), (mem_drawnPixels ..).2 hcov, hon⟩)]
    rfl
  case clear =>
    have hnone : ((drawnPixels s x y n).foldl flipPixel (s.fb, false)).2 = false := by
      rw [← Bool.not_eq_true, hcoll]
      rintro (hf | ⟨⟨Y, X⟩, hm, hon⟩)
      · cases hf
      · exact Bool.false_ne_true ((hoff Y X ((mem_drawnPixels ..).1 hm)).symm.trans hon)
    rw [showDrawn_getV_flagReg, hnone]
    rfl
  case others => exact State.getV_setFlag_ne s _ hq

/-- The pixels that a sprite covers depend on its two coordinates, `I` and memory alone. -/
theorem spriteCovers_congr {s t : State} {x y n : Nibble} (hx : t.getV x = s.getV x) (hy : t.getV y = s.getV y)
    (hi : t.i = s.i) (hmem : t.mem = s.mem) (Y : Fin 32) (X : Fin 64) :
    SpriteCovers t x y n Y X ↔ SpriteCovers s x y n Y X := by
  unfold SpriteCovers
  rw [hx, hy, hi, hmem]

/-- Settles O25: the second draw covers the same pixels, so that each is inverted twice; it collides with those that
the first has turned on. -/
theorem drawingTwiceRestoresTheDisplay : Obligations.DrawingTwiceRestoresTheDisplay := by
  intro x y n s t h hdraw hx hy
  obtain ⟨t', hdraw', hcov, huncov, -, -, -, -, hframe⟩ := drwInvertsExactlyTheSprite x y n s h
  obtain rfl : t' = t := Host.Outcome.next.inj (hdraw'.symm.trans hdraw)
  have hi : t'.i = s.i := by rw [hframe]
  have hmem : t'.mem = s.mem := by rw [hframe]
  have hsame := spriteCovers_congr (n := n) hx hy hi hmem
  obtain ⟨u, hu, hcov', huncov', hcollides, hclear, -⟩ := drwInvertsExactlyTheSprite x y n t' (by rwa [hi])
  refine ⟨u, hu, Framebuffer.ext_pixel fun Y X => ?_, fun hvf => ?_, fun ⟨Y, X, hc, hoff⟩ => ?_⟩
  · by_cases hc : SpriteCovers s x y n Y X
    · rw [hcov' Y X ((hsame Y X).2 hc), hcov Y X hc, Bool.not_not]
    · rw [huncov' Y X (mt (hsame Y X).1 hc), huncov Y X hc]
  · by_contra hnone
    have hoff : ∀ Y X, SpriteCovers t' x y n Y X → t'.fb.pixel Y X = false := fun Y X hc => by
      have hc' : SpriteCovers s x y n Y X := (hsame Y X).1 hc
      have hon : s.fb.pixel Y X ≠ false := fun hoff => hnone ⟨Y, X, hc', hoff⟩
      rw [hcov Y X hc', Bool.eq_true_of_not_eq_false hon]
      rfl
    have h01 : (1 : Byte) = 0 := hvf.symm.trans (hclear hoff)
    exact absurd h01 (by decide)
  · exact hcollides ⟨Y, X, (hsame Y X).2 hc, by rw [hcov Y X hc, hoff]; rfl⟩

end Sys2Proof.Machine
end
